-- ==== Sys2Proof/Word.lean ====
section
/-! DEFINITION. The words of the block: bytes of BUF, 32-bit operands and dictionary entries, 128-bit command words. -/

namespace Sys2Proof

/-- A byte of BUF (R24). -/
abbrev Byte := BitVec 8

/-- A 32-bit unsigned value: an operand A, B or C, a dictionary entry, PREV_ONSET, RESP.DATA (R8, VALUE_W = 32). -/
abbrev Word := BitVec 32

/-- A command word as the CMD port carries it (R22, R70). -/
abbrev CmdWord := BitVec 128

end Sys2Proof
end

