-- ==== Sys2Proof/Syntax.lean ====
section
/-! DEFINITION. The commands of the block: one constructor for each row of the opcode table (R73, R74). -/

namespace Sys2Proof

/-- A dictionary field (R14, R75): delta, length or pitch. -/
inductive DictField where
  | delta | length | pitch
deriving DecidableEq, Repr

/-- A note of a channel (R14): onset frame, duration in frames, pitch in Hz. -/
structure Note where
  onset : Word
  duration : Word
  pitch : Word
deriving DecidableEq, Repr

/-- A command with the fields it uses (R74). Fields are unsigned and taken as they stand (R72). SEL is kept as the two
bits of the word: which of its values are legal is `Instr.wf` (R77; log 8). -/
inductive Instr where
  /-- 0x0 NOP (R170). -/
  | nop
  /-- 0x1 CLRS (R106). -/
  | clrs
  /-- 0x2 WBIT: `bit` is A[0] (R104). -/
  | wbit (bit : BitVec 1)
  /-- 0x3 WBITS: `value` is A, `width` is W (R105). -/
  | wbits (value : Word) (width : BitVec 6)
  /-- 0x4 SETCH: `channel` is SEL (R144). -/
  | setch (channel : BitVec 2)
  /-- 0x5 DINS: `field` is SEL, `value` is A (R123). -/
  | dins (field : BitVec 2) (value : Word)
  /-- 0x6 DCLR (R124). -/
  | dclr
  /-- 0x7 DRD: `field` is SEL, `index` is A (R125). -/
  | drd (field : BitVec 2) (index : Word)
  /-- 0x8 DSZ: `field` is SEL (R126). -/
  | dsz (field : BitVec 2)
  /-- 0x9 RANK: `field` is SEL, `value` is A (R127). -/
  | rank (field : BitVec 2) (value : Word)
  /-- 0xA SCAN: A, B, C (R146). -/
  | scan (onset duration pitch : Word)
  /-- 0xB REWIND (R145). -/
  | rewind
  /-- 0xC EMIT: A, B, C (R147). -/
  | emit (onset duration pitch : Word)
  /-- 0xD EMITR: A, B, C (R148). -/
  | emitr (rdelta rlength rpitch : Word)
  /-- 0xE RDB: `address` is A (R172). -/
  | rdb (address : Word)
  /-- 0xF RDST: `selector` is SEL (R171). -/
  | rdst (selector : BitVec 2)
deriving DecidableEq, Repr

end Sys2Proof
end

