-- ==== Sys2Proof/WellFormed.lean ====
section
/-! DEFINITION. Which terms of `Instr` are legal commands (R77). -/

namespace Sys2Proof

/-- SEL names a dictionary field or a channel: 3 is illegal (R75, R77 (b)). -/
def selLegal (sel : BitVec 2) : Bool := sel != 3#2

/-- A term of `Instr` is a legal command unless it is SETCH, DINS, DRD, DSZ or RANK with SEL = 3 (R77 (b)). Every other
operand value its fields can hold is legal; RDST takes all four selectors (R75). -/
def Instr.wf : Instr → Bool
  | .nop => true
  | .clrs => true
  | .wbit _ => true
  | .wbits _ _ => true
  | .setch channel => selLegal channel
  | .dins field _ => selLegal field
  | .dclr => true
  | .drd field _ => selLegal field
  | .dsz field => selLegal field
  | .rank field _ => selLegal field
  | .scan _ _ _ => true
  | .rewind => true
  | .emit _ _ _ => true
  | .emitr _ _ _ => true
  | .rdb _ => true
  | .rdst _ => true

end Sys2Proof
end

