-- ==== Sys2Proof/Decode.lean ====
section
/-! DEFINITION. The command encoding (30_encoding.md): the fields of a word, the table of R74, decoding as the total
function of R78, the byte form of R71, and the encoder. -/

namespace Sys2Proof

/-! ## The format (R70) -/

/-- The OP field, bits 127:124. -/
def opOf (word : CmdWord) : BitVec 4 := word.extractLsb' 124 4
/-- The SEL field, bits 103:102. -/
def selOf (word : CmdWord) : BitVec 2 := word.extractLsb' 102 2
/-- The W field, bits 101:96. -/
def wOf (word : CmdWord) : BitVec 6 := word.extractLsb' 96 6
/-- The C field, bits 95:64. -/
def cOf (word : CmdWord) : Word := word.extractLsb' 64 32
/-- The B field, bits 63:32. -/
def bOf (word : CmdWord) : Word := word.extractLsb' 32 32
/-- The A field, bits 31:0. -/
def aOf (word : CmdWord) : Word := word.extractLsb' 0 32

/-- A word written as R70 writes it: four 32-bit groups, most significant first. -/
def groups (w3 w2 w1 w0 : Word) : CmdWord := w3 ++ w2 ++ w1 ++ w0

/-- A word made of its fields, RSV zero (R70, R76). -/
def packFields (op : BitVec 4) (sel : BitVec 2) (w : BitVec 6) (c b a : Word) : CmdWord :=
  op ++ 0#20 ++ sel ++ w ++ c ++ b ++ a

/-! ## The opcode table (R73, R74) -/

/-- The sixteen commands, in the order of their OP values (R73). -/
inductive Opcode where
  | nop | clrs | wbit | wbits | setch | dins | dclr | drd | dsz | rank | scan | rewind | emit | emitr | rdb | rdst
deriving DecidableEq, Repr

/-- The OP value that selects each command (R73). -/
def opcodeBits : Opcode → BitVec 4
  | .nop => 0x0#4
  | .clrs => 0x1#4
  | .wbit => 0x2#4
  | .wbits => 0x3#4
  | .setch => 0x4#4
  | .dins => 0x5#4
  | .dclr => 0x6#4
  | .drd => 0x7#4
  | .dsz => 0x8#4
  | .rank => 0x9#4
  | .scan => 0xa#4
  | .rewind => 0xb#4
  | .emit => 0xc#4
  | .emitr => 0xd#4
  | .rdb => 0xe#4
  | .rdst => 0xf#4

/-- The command an OP value selects: all sixteen are assigned (R73). -/
def opcodeOf (op : BitVec 4) : Opcode :=
  match op.toNat with
  | 0x0 => .nop
  | 0x1 => .clrs
  | 0x2 => .wbit
  | 0x3 => .wbits
  | 0x4 => .setch
  | 0x5 => .dins
  | 0x6 => .dclr
  | 0x7 => .drd
  | 0x8 => .dsz
  | 0x9 => .rank
  | 0xa => .scan
  | 0xb => .rewind
  | 0xc => .emit
  | 0xd => .emitr
  | 0xe => .rdb
  | _ => .rdst

/-- All sixteen commands. -/
def allOpcodes : List Opcode :=
  [.nop, .clrs, .wbit, .wbits, .setch, .dins, .dclr, .drd, .dsz, .rank, .scan, .rewind, .emit, .emitr, .rdb, .rdst]

/-- A row of the table of R74. -/
structure Row where
  /-- The mnemonic as spec/opcode_table.json spells it. -/
  mnemonic : String
  /-- The column 'match'. -/
  pattern : CmdWord
  /-- The column 'mask'. -/
  mask : CmdWord
  /-- SEL is a field select or a channel, so that SEL = 3 is illegal (R75, R77 (b)). -/
  selThreeIllegal : Bool
deriving DecidableEq, Repr

/-- The table of R74. -/
def rowOf : Opcode → Row
  | .nop => ⟨"NOP", groups 0x00000000 0x00000000 0x00000000 0x00000000,
      groups 0xffffffff 0xffffffff 0xffffffff 0xffffffff, false⟩
  | .clrs => ⟨"CLRS", groups 0x10000000 0x00000000 0x00000000 0x00000000,
      groups 0xffffffff 0xffffffff 0xffffffff 0xffffffff, false⟩
  | .wbit => ⟨"WBIT", groups 0x20000000 0x00000000 0x00000000 0x00000000,
      groups 0xffffffff 0xffffffff 0xffffffff 0xfffffffe, false⟩
  | .wbits => ⟨"WBITS", groups 0x30000000 0x00000000 0x00000000 0x00000000,
      groups 0xffffffc0 0xffffffff 0xffffffff 0x00000000, false⟩
  | .setch => ⟨"SETCH", groups 0x40000000 0x00000000 0x00000000 0x00000000,
      groups 0xffffff3f 0xffffffff 0xffffffff 0xffffffff, true⟩
  | .dins => ⟨"DINS", groups 0x50000000 0x00000000 0x00000000 0x00000000,
      groups 0xffffff3f 0xffffffff 0xffffffff 0x00000000, true⟩
  | .dclr => ⟨"DCLR", groups 0x60000000 0x00000000 0x00000000 0x00000000,
      groups 0xffffffff 0xffffffff 0xffffffff 0xffffffff, false⟩
  | .drd => ⟨"DRD", groups 0x70000000 0x00000000 0x00000000 0x00000000,
      groups 0xffffff3f 0xffffffff 0xffffffff 0x00000000, true⟩
  | .dsz => ⟨"DSZ", groups 0x80000000 0x00000000 0x00000000 0x00000000,
      groups 0xffffff3f 0xffffffff 0xffffffff 0xffffffff, true⟩
  | .rank => ⟨"RANK", groups 0x90000000 0x00000000 0x00000000 0x00000000,
      groups 0xffffff3f 0xffffffff 0xffffffff 0x00000000, true⟩
  | .scan => ⟨"SCAN", groups 0xa0000000 0x00000000 0x00000000 0x00000000,
      groups 0xffffffff 0x00000000 0x00000000 0x00000000, false⟩
  | .rewind => ⟨"REWIND", groups 0xb0000000 0x00000000 0x00000000 0x00000000,
      groups 0xffffffff 0xffffffff 0xffffffff 0xffffffff, false⟩
  | .emit => ⟨"EMIT", groups 0xc0000000 0x00000000 0x00000000 0x00000000,
      groups 0xffffffff 0x00000000 0x00000000 0x00000000, false⟩
  | .emitr => ⟨"EMITR", groups 0xd0000000 0x00000000 0x00000000 0x00000000,
      groups 0xffffffff 0x00000000 0x00000000 0x00000000, false⟩
  | .rdb => ⟨"RDB", groups 0xe0000000 0x00000000 0x00000000 0x00000000,
      groups 0xffffffff 0xffffffff 0xffffffff 0x00000000, false⟩
  | .rdst => ⟨"RDST", groups 0xf0000000 0x00000000 0x00000000 0x00000000,
      groups 0xffffff3f 0xffffffff 0xffffffff 0xffffffff, false⟩

/-- 'A word selects a command when (word AND mask) = match' (R74). -/
def rowMatches (row : Row) (word : CmdWord) : Bool := word &&& row.mask == row.pattern

/-! ## Decoding (R78) -/

/-- Why a word, or a sequence of bytes, is no command. The first two are the ILLEGAL words of R77, with the mnemonic of
the row whose OP the word has; the third is no word at all (R71, R79). -/
inductive DecodeError where
  /-- R77 (a): a reserved or unused bit is nonzero. -/
  | reservedBits (mnemonic : String)
  /-- R77 (b): SEL = 3 where SEL is a field select or a channel. -/
  | selThree (mnemonic : String)
  /-- The byte form of a command has 16 bytes (R71); these are not. -/
  | notSixteenBytes (n : Nat)
deriving DecidableEq, Repr

/-- The command a word stands for once its row's checks hold: its fields as they stand (R72). -/
def buildInstr (op : Opcode) (word : CmdWord) : Instr :=
  match op with
  | .nop => .nop
  | .clrs => .clrs
  | .wbit => .wbit (word.extractLsb' 0 1)
  | .wbits => .wbits (aOf word) (wOf word)
  | .setch => .setch (selOf word)
  | .dins => .dins (selOf word) (aOf word)
  | .dclr => .dclr
  | .drd => .drd (selOf word) (aOf word)
  | .dsz => .dsz (selOf word)
  | .rank => .rank (selOf word) (aOf word)
  | .scan => .scan (aOf word) (bOf word) (cOf word)
  | .rewind => .rewind
  | .emit => .emit (aOf word) (bOf word) (cOf word)
  | .emitr => .emitr (aOf word) (bOf word) (cOf word)
  | .rdb => .rdb (aOf word)
  | .rdst => .rdst (selOf word)

/-- Decoding, total on every 128-bit word (R78). -/
def decode (word : CmdWord) : Except DecodeError Instr :=
  let op := opcodeOf (opOf word)
  let row := rowOf op
  if !rowMatches row word then .error (.reservedBits row.mnemonic)
  else if row.selThreeIllegal && selOf word == 3#2 then .error (.selThree row.mnemonic)
  else .ok (buildInstr op word)

/-! ## The byte form (R71) -/

/-- The value of bytes in increasing address order, little-endian. -/
def bytesValue : List Byte → Nat
  | [] => 0
  | b :: bs => b.toNat + 256 * bytesValue bs

/-- The word that 16 bytes carry: byte i is bits 8i+7 : 8i (R71). -/
def wordOfBytes (bs : List Byte) : Option CmdWord :=
  if bs.length = 16 then some (BitVec.ofNat 128 (bytesValue bs)) else none

/-- The 16 bytes that carry a word, lowest address first (R71). -/
def bytesOfWord (word : CmdWord) : List Byte :=
  (List.range 16).map fun i => word.extractLsb' (8 * i) 8

/-- Decoding, total on any bytes: a command is 16 bytes, one length and one format (R71, R79). -/
def decodeBytes (bs : List Byte) : Except DecodeError Instr :=
  match wordOfBytes bs with
  | some word => decode word
  | none => .error (.notSixteenBytes bs.length)

/-! ## Encoding -/

/-- The word of a command: OP from R73, its operands in the fields R74 names, every other bit zero. -/
def encode : Instr → CmdWord
  | .nop => packFields 0x0#4 0 0 0 0 0
  | .clrs => packFields 0x1#4 0 0 0 0 0
  | .wbit bit => packFields 0x2#4 0 0 0 0 (bit.setWidth 32)
  | .wbits value width => packFields 0x3#4 0 width 0 0 value
  | .setch channel => packFields 0x4#4 channel 0 0 0 0
  | .dins field value => packFields 0x5#4 field 0 0 0 value
  | .dclr => packFields 0x6#4 0 0 0 0 0
  | .drd field index => packFields 0x7#4 field 0 0 0 index
  | .dsz field => packFields 0x8#4 field 0 0 0 0
  | .rank field value => packFields 0x9#4 field 0 0 0 value
  | .scan onset duration pitch => packFields 0xa#4 0 0 pitch duration onset
  | .rewind => packFields 0xb#4 0 0 0 0 0
  | .emit onset duration pitch => packFields 0xc#4 0 0 pitch duration onset
  | .emitr rdelta rlength rpitch => packFields 0xd#4 0 0 rpitch rlength rdelta
  | .rdb address => packFields 0xe#4 0 0 0 0 address
  | .rdst selector => packFields 0xf#4 selector 0 0 0 0

/-- The row of R73 and R74 a command belongs to. -/
def opcodeOfInstr : Instr → Opcode
  | .nop => .nop
  | .clrs => .clrs
  | .wbit _ => .wbit
  | .wbits _ _ => .wbits
  | .setch _ => .setch
  | .dins _ _ => .dins
  | .dclr => .dclr
  | .drd _ _ => .drd
  | .dsz _ => .dsz
  | .rank _ _ => .rank
  | .scan _ _ _ => .scan
  | .rewind => .rewind
  | .emit _ _ _ => .emit
  | .emitr _ _ _ => .emitr
  | .rdb _ => .rdb
  | .rdst _ => .rdst

/-! ## The host's question -/

/-- The 128-bit word an opcode-table row's bits `w` stand for: `nbits` of them, every bit above them zero. A row of more
than 128 bits is no command (R79; log 11). -/
def tableWord (nbits w : Nat) : Option CmdWord :=
  if nbits ≤ 128 then some (BitVec.ofNat 128 (w % 2 ^ nbits)) else none

/-- What the decoder reads from a word numbered as spec/opcode_table.json numbers it (bit 0 least significant), laid out
as its 16 bytes (R71). -/
def decodeTableWord (nbits w : Nat) : Option Instr :=
  match tableWord nbits w with
  | none => none
  | some word =>
    match decodeBytes (bytesOfWord word) with
    | .ok i => some i
    | .error _ => none

end Sys2Proof
end

