-- ==== Sys2Proof/Config.lean ====
section
/-! DEFINITION. The parameters of R8 that the spec leaves OPEN and a model takes as arguments. -/

namespace Sys2Proof

/-- BUF_CAP and DICT_CAP (R8). They are arguments of the model: a field of the state that no step changes (log 4).
The third open parameter, N_INST, is the argument of `Machine.System` (log 9). -/
structure Config where
  /-- BUF_CAP: the most bytes BUF may hold (D7). -/
  bufCap : Nat
  /-- DICT_CAP: the most entries each dictionary may hold (D8). -/
  dictCap : Nat
deriving DecidableEq, Repr

/-- The ranges R8 gives: 1 <= BUF_CAP <= 2^29 and 1 <= DICT_CAP <= 2^32 - 1. -/
abbrev Config.wf (c : Config) : Prop :=
  1 ≤ c.bufCap ∧ c.bufCap ≤ 2 ^ 29 ∧ 1 ≤ c.dictCap ∧ c.dictCap ≤ 2 ^ 32 - 1

/-- The parameters `State.reset` carries. DESIGN CHOICE, unsafe (log 4): the spec leaves both open; 2^20 is the number
95_test_vectors.md names as an example of a capacity that does not bind. A statement uses of it only that it is in
the ranges of R8. -/
def Config.reference : Config := { bufCap := 2 ^ 20, dictCap := 2 ^ 20 }

end Sys2Proof
end

