-- ==== Sys2Proof/Machine/State.lean ====
section
/-! DEFINITION. The state of the block (10_state.md), the reasons a step can stop, and the state RST leaves (R200). -/

namespace Sys2Proof.Machine

/-- BUF's bytes as (address, byte) cells in canonical form: addresses strictly rising, no cell that holds the byte an
unlisted address reads as (`memWf` in Machine/Ops.lean; log 5). -/
abbrev Mem := List Host.Cell

/-- The response register RESP, 33 bits (R33). -/
structure Resp where
  /-- RESP.V: the response holds a valid datum. -/
  v : Bool
  /-- RESP.DATA. -/
  data : Word
deriving DecidableEq, Repr

/-- A move of the host that the block sees (R22, R212): a word presented on CMD, or RST asserted. RST acts between
commands, never inside one (R200). -/
inductive HostMove where
  | cmd (word : CmdWord)
  | rst
deriving DecidableEq, Repr

/-- The causes of a latched fault (R180). Taking one is a next state (R183), not a `Fault`. -/
inductive FaultCause where
  /-- The command word is illegal (R77). -/
  | illegal
  /-- CHAN = NONE when a command needs a channel. -/
  | nochan
  /-- The onset is below PREV_ONSET (R142). -/
  | order
  /-- A value EMIT looks up is not in its dictionary. -/
  | miss
  /-- A new value for a dictionary that holds DICT_CAP entries. -/
  | dictFull
  /-- The bits to write would make LEN exceed BUF_CAP (R102). -/
  | bufFull
deriving DecidableEq, Repr

/-- The reasons a step can stop the machine with a fault: NONE. Every fault of R180 is latched in FAULTED and FAULT_CODE
and the block goes on taking commands (R183, R184), so taking it is a next state; no rule of the spec stops the block
(log 6). Nothing raises a `Fault`, which is safe: no run is cut short. -/
inductive Fault where
deriving DecidableEq, Repr

/-- The reasons the model gives a step no meaning. -/
inductive Refusal where
  /-- Raised by an arm of `exec` whose instruction has no meaning yet. No arm does. Safe. -/
  | notModelled (mnemonic : String)
  /-- Raised by `runCommand` for a command presented before the first RST after power-up: the state is unspecified then
  and 'a model treats a command presented before any RST as refused' (R201; log 3). Safe. -/
  | commandBeforeReset
deriving DecidableEq, Repr

/-- The state of one block: the state R23 lists, and the model's own fields `cfg`, `rstDone` and `input`. -/
structure State where
  /-- The model's own: BUF_CAP and DICT_CAP (R8), arguments of the model, changed by no step (log 4). -/
  cfg : Config
  /-- BUF (R24): the bytes at addresses 0 to LEN-1. -/
  mem : Mem
  /-- LEN - 1, the source's byte_index, which R25 allows as the register (log 5); LEN is `State.len`. -/
  byteIndex : Nat
  /-- BIT_OFFSET (R26). -/
  bitOffset : BitVec 3
  /-- OVF, sticky (R29). -/
  ovf : Bool
  /-- CHAN (R30): 0 noise, 1 triangle, 2 pulse, 3 NONE. -/
  chan : BitVec 2
  /-- PREV_ONSET (R31). -/
  prevOnset : Word
  /-- DICT[0], delta (R32). -/
  dictDelta : List Word
  /-- DICT[1], length (R32). -/
  dictLength : List Word
  /-- DICT[2], pitch (R32). -/
  dictPitch : List Word
  /-- RESP (R33). -/
  resp : Resp
  /-- FAULTED (R34). -/
  faulted : Bool
  /-- FAULT_CODE (R34, R180). -/
  faultCode : BitVec 3
  /-- The model's own: an RST has been asserted since power-up (R201; log 3). -/
  rstDone : Bool
  /-- The model's own: the host's moves on CMD and RST that the block has not taken yet, oldest first (R22, R211;
  log 1). -/
  input : List HostMove
deriving DecidableEq, Repr

/-- The state RST leaves (R23, R200), for the given parameters and the given host moves still to come. -/
def State.resetWith (cfg : Config) (input : List HostMove) : State :=
  { cfg := cfg
    mem := []
    byteIndex := 0
    bitOffset := 0#3
    ovf := false
    chan := 3#2
    prevOnset := 0#32
    dictDelta := []
    dictLength := []
    dictPitch := []
    resp := { v := false, data := 0#32 }
    faulted := false
    faultCode := 0#3
    rstDone := true
    input := input }

/-- The machine right after reset: the reset value of every register (R23), no host move pending. -/
def State.reset : State := State.resetWith Config.reference []

end Sys2Proof.Machine
end

