-- ==== Sys2Proof/Machine/Flags.lean ====
section
/-! DEFINITION. The flags: OVF (R29, R103), FAULT_OUT (R34) and the status word (R35). -/

namespace Sys2Proof.Machine

/-- `Truncates(v, w)`: `(v >> w) != 0`, that is v >= 2^w (R103). -/
def truncates (v w : Nat) : Bool := v >>> w != 0

/-- `OVF <- OVF OR Truncates(v, w)` (R103). -/
def noteTruncation (v w : Nat) (s : State) : State := { s with ovf := s.ovf || truncates v w }

/-- The level output FAULT_OUT, equal to FAULTED at all times (R34, R186). -/
def faultOut (s : State) : Bool := s.faulted

/-- The status word RDST reads with selector 0 (R35): from the top, 22 zero bits, FAULT_CODE, FAULTED, CHAN, OVF,
BIT_OFFSET. -/
def statusWord (s : State) : Word :=
  0#22 ++ s.faultCode ++ BitVec.ofBool s.faulted ++ s.chan ++ BitVec.ofBool s.ovf ++ s.bitOffset

end Sys2Proof.Machine
end

