-- ==== Sys2Proof/Machine/Ops.lean ====
section
/-! DEFINITION. The named operations over the state: BUF (R50 to R53), the stream (R100 to R102), the dictionaries (R120
to R122), RESP (R33), taking a fault (R183) and leaving it (R185, R200). -/

namespace Sys2Proof.Machine

/-! ## BUF -/

/-- What an address of BUF that no cell lists holds. BUF starts as one zero byte and grows by zero bytes only (R23, R53),
so a byte of BUF in which no bit has been set is 0x00 (log 5). -/
def unlistedByte : Byte := 0x00#8

/-- `BUF[j]` (R52). -/
def memRead : Mem → Nat → Byte
  | [], _ => unlistedByte
  | (a, b) :: rest, j => if a = j then b else memRead rest j

/-- A cell in front of `rest`, left out when it holds what an unlisted address reads as. -/
def consCell (a : Nat) (b : Byte) (rest : Mem) : Mem := if b = unlistedByte then rest else (a, b) :: rest

/-- `BUF[j] <- v` (R52), keeping the canonical form. -/
def memWrite : Mem → Nat → Byte → Mem
  | [], j, v => consCell j v []
  | (a, b) :: rest, j, v =>
    if j < a then consCell j v ((a, b) :: rest)
    else if j = a then consCell j v rest
    else (a, b) :: memWrite rest j v

/-- The canonical form of a memory: addresses strictly rising, no cell that holds `unlistedByte`. -/
abbrev memWf (m : Mem) : Prop :=
  m.Pairwise (fun c d => c.1 < d.1) ∧ ∀ c ∈ m, c.2 ≠ unlistedByte

/-- LEN, the number of bytes of BUF (R24); `byteIndex = LEN - 1` (R25). -/
def State.len (s : State) : Nat := s.byteIndex + 1

/-- TB, the number of stream bits written since the last reset or CLRS: 8*(LEN-1) + BIT_OFFSET (R28). -/
def State.tb (s : State) : Nat := 8 * s.byteIndex + s.bitOffset.toNat

/-- `MemRead(j, 1)` (R52): the byte at an address that exists, none at or beyond LEN (R59). -/
def readByte (s : State) (j : Nat) : Option Byte := if j < s.len then some (memRead s.mem j) else none

/-- `Append0()`: BUF[LEN] <- 0x00; LEN <- LEN + 1 (R53). -/
def append0 (s : State) : State :=
  { s with mem := memWrite s.mem s.len 0x00#8, byteIndex := s.byteIndex + 1 }

/-- BUF <- [0x00]; LEN <- 1; BIT_OFFSET <- 0; OVF <- 0 (R106). -/
def clearStream (s : State) : State :=
  { s with mem := [], byteIndex := 0, bitOffset := 0#3, ovf := false }

/-! ## Writing stream bits -/

/-- The byte a bit is ORed into, after the OR: `BUF[LEN-1] OR (b << BIT_OFFSET)` (R100). -/
def orBit (byte : Byte) (b : Bool) (bitOffset : BitVec 3) : Byte :=
  byte ||| (BitVec.setWidth 8 (BitVec.ofBool b) <<< bitOffset.toNat)

/-- `WriteBit(b)` (R100): the bit goes into the current byte at BIT_OFFSET; a byte that fills is followed at once by a new
zero byte. -/
def writeBit (b : Bool) (s : State) : State :=
  let s1 := { s with mem := memWrite s.mem s.byteIndex (orBit (memRead s.mem s.byteIndex) b s.bitOffset) }
  if s.bitOffset = 7#3 then { append0 s1 with bitOffset := 0#3 }
  else { s1 with bitOffset := s.bitOffset + 1#3 }

/-- The bits `i`, `i+1`, …, `i+n-1` of v, in that order, each through WriteBit. -/
def writeBitsFrom (v : Nat) : (i n : Nat) → State → State
  | _, 0, s => s
  | i, n + 1, s => writeBitsFrom v (i + 1) n (writeBit (v.testBit i) s)

/-- `WriteBits(v, w)`: for i in 0 .. w-1 ascending, WriteBit((v >> i) AND 1) (R101). -/
def writeBits (v w : Nat) (s : State) : State := writeBitsFrom v 0 w s

/-- `BitsFit(n)`: LEN + (BIT_OFFSET + n) div 8 <= BUF_CAP (R102). -/
def bitsFit (s : State) (n : Nat) : Bool := decide (s.len + (s.bitOffset.toNat + n) / 8 ≤ s.cfg.bufCap)

/-- A field write: WriteBits(v, w), and OVF <- OVF OR Truncates(v, w) (R101, R103). -/
def writeField (v w : Nat) (s : State) : State := noteTruncation v w (writeBits v w s)

/-- Several field writes, in order; each entry is a value and its width. -/
def writeFields : List (Nat × Nat) → State → State
  | [], s => s
  | (v, w) :: rest, s => writeFields rest (writeField v w s)

/-! ## The dictionaries -/

/-- `DICT[f]` (R32). -/
def State.dict (s : State) : DictField → List Word
  | .delta => s.dictDelta
  | .length => s.dictLength
  | .pitch => s.dictPitch

/-- `DICT[f] <- d`. -/
def setDict (f : DictField) (d : List Word) (s : State) : State :=
  match f with
  | .delta => { s with dictDelta := d }
  | .length => { s with dictLength := d }
  | .pitch => { s with dictPitch := d }

/-- The number of entries of a dictionary strictly less than v, in unsigned order (R120, D31). -/
def countBelow (v : Word) (d : List Word) : Nat := d.countP fun x => x < v

/-- `NeedsSlot(f, v)`: v is not in the dictionary (R121). -/
def needsSlot (v : Word) (d : List Word) : Bool := decide (v ∉ d)

/-- `DictInsert` on one dictionary (R121): a value already there changes nothing; a new one goes after the entries below
it. -/
def dictInsert (v : Word) (d : List Word) : List Word :=
  if v ∈ d then d
  else d.take (countBelow v d) ++ [v] ++ d.drop (countBelow v d)

/-- `DictRank` on one dictionary (R122): the rank of a value that is there (R120), none on a miss. -/
def dictRank (v : Word) (d : List Word) : Option Nat :=
  if v ∈ d then some (countBelow v d) else none

/-- `NeedsSlot(f, v) and |DICT[f]| == DICT_CAP`, the DICT_FULL condition (R123, R146). -/
def lacksRoom (s : State) (f : DictField) (v : Word) : Bool :=
  needsSlot v (s.dict f) && (s.dict f).length == s.cfg.dictCap

/-- `DictInsert(f, v)` (R121). -/
def insertValue (f : DictField) (v : Word) (s : State) : State := setDict f (dictInsert v (s.dict f)) s

/-- DICT[0] <- []; DICT[1] <- []; DICT[2] <- [] (R124). -/
def clearDicts (s : State) : State := { s with dictDelta := [], dictLength := [], dictPitch := [] }

/-! ## RESP -/

/-- `RESP <- (1, data)` (R33). -/
def respond (data : Word) (s : State) : State := { s with resp := { v := true, data := data } }

/-- `RESP <- (0, 0)`: the read found nothing to return (R33). -/
def respondNothing (s : State) : State := { s with resp := { v := false, data := 0#32 } }

/-! ## Taking a fault, and leaving it -/

/-- The codes of R180. -/
def faultCodeOf : FaultCause → BitVec 3
  | .illegal => 1#3
  | .nochan => 2#3
  | .order => 3#3
  | .miss => 4#3
  | .dictFull => 5#3
  | .bufFull => 6#3

/-- Fault entry (R183): FAULTED <- 1 and FAULT_CODE <- code(F); everything else, RESP with it, stays as it was before the
command. -/
def latchFault (c : FaultCause) (s : State) : State := { s with faulted := true, faultCode := faultCodeOf c }

/-- `raise F(info)` (R183): the command ends in fault entry from the state before it. The info is recorded nowhere
(R180). -/
def raise (c : FaultCause) (s : State) : Host.Outcome State Fault Refusal := .next (latchFault c s)

/-- The way out of a fault, and the only one (R185): RST puts every register at its reset value (R200). The parameters and
the host's later moves are no registers and stay. -/
def applyReset (s : State) : State := State.resetWith s.cfg s.input

/-- While FAULTED, a command that is not one of the six read-only ones is discarded with no effect at all (R182, R184);
otherwise it runs. -/
def unlessFaulted (s : State) (run : Host.Outcome State Fault Refusal) : Host.Outcome State Fault Refusal :=
  if s.faulted then .next s else run

/-- What the block does with an illegal word (R77, R182, R184): it raises ILLEGAL, or discards the word while FAULTED. -/
def runIllegal (s : State) : Host.Outcome State Fault Refusal := unlessFaulted s (raise .illegal s)

end Sys2Proof.Machine
end

