-- ==== Sys2Proof/Machine/Operands.lean ====
section
/-! DEFINITION. Operands: the field selects (R75), the channel field table (R140, R141), a note's values by field (R146),
delta derivation (R142) and rank lookup (R147). -/

namespace Sys2Proof.Machine

/-- The SEL value of a field (R75). -/
def selOfField : DictField → BitVec 2
  | .delta => 0#2
  | .length => 1#2
  | .pitch => 2#2

/-- The field a SEL value selects; 3 selects none (R75). -/
def fieldOfSel (sel : BitVec 2) : Option DictField :=
  match sel.toNat with
  | 0 => some .delta
  | 1 => some .length
  | 2 => some .pitch
  | _ => none

/-- The value of CHAN that is no channel: NONE (R30). -/
def chanNone : BitVec 2 := 3#2

/-- `Fields(ch)`: the (field, width) pairs of a channel in write order; NONE has none (R140). -/
def chanFields (ch : BitVec 2) : List (DictField × Nat) :=
  match ch.toNat with
  | 0 => [(.delta, 3)]
  | 1 => [(.delta, 4), (.length, 3), (.pitch, 5)]
  | 2 => [(.delta, 3), (.length, 2), (.pitch, 5)]
  | _ => []

/-- `BPN(ch)`: the sum of the widths of `Fields(ch)` (R141). -/
def bitsPerNote (ch : BitVec 2) : Nat := ((chanFields ch).map (·.2)).sum

/-- `val[0]`, `val[1]`, `val[2]` of a note, or `r[0]`, `r[1]`, `r[2]` of EMITR (R146, R147, R148). -/
def byField (delta length pitch : Word) : DictField → Word
  | .delta => delta
  | .length => length
  | .pitch => pitch

/-- `NextDelta(onset)` (R142): none where it raises ORDER. -/
def nextDelta (onset : Word) (s : State) : Option Word :=
  if onset < s.prevOnset then none else some (onset - s.prevOnset)

/-- SCAN's capacity check: some used field needs a slot in a dictionary that has none (R146). -/
def anyLacksRoom (fields : List (DictField × Nat)) (val : DictField → Word) (s : State) : Bool :=
  fields.any fun fw => lacksRoom s fw.1 (val fw.1)

/-- SCAN's insertions, in the order of the fields (R146). -/
def insertFields : List (DictField × Nat) → (DictField → Word) → State → State
  | [], _, s => s
  | (f, _) :: rest, val, s => insertFields rest val (insertValue f (val f) s)

/-- EMIT's lookups (R147): the rank of each used field's value with the field's width, in order; none when one misses. -/
def lookupRanks : List (DictField × Nat) → (DictField → Word) → State → Option (List (Nat × Nat))
  | [], _, _ => some []
  | (f, w) :: rest, val, s =>
    match dictRank (val f) (s.dict f), lookupRanks rest val s with
    | some k, some ranks => some ((k, w) :: ranks)
    | _, _ => none

/-- EMITR's ranks: the operand of each used field with the field's width, in order (R148). -/
def givenRanks (fields : List (DictField × Nat)) (r : DictField → Word) : List (Nat × Nat) :=
  fields.map fun fw => ((r fw.1).toNat, fw.2)

/-- A command whose SEL is a field select (R75): with SEL = 3 the word is illegal (R77). -/
def withField (sel : BitVec 2) (s : State) (run : DictField → Host.Outcome State Fault Refusal) :
    Host.Outcome State Fault Refusal :=
  match fieldOfSel sel with
  | some f => run f
  | none => runIllegal s

end Sys2Proof.Machine
end

