-- ==== Sys2Proof/Machine/BitWriter.lean ====
section
/-! DEFINITION. The BitWriter commands CLRS, WBIT, WBITS (40_bitwriter.md). -/

namespace Sys2Proof.Machine

/-- CLRS (R106). -/
def execClrs (s : State) : Host.Outcome State Fault Refusal :=
  unlessFaulted s (.next (clearStream s))

/-- WBIT (R104). -/
def execWbit (bit : BitVec 1) (s : State) : Host.Outcome State Fault Refusal :=
  unlessFaulted s <|
    if bitsFit s 1 then .next (writeBit (bit == 1#1) s) else raise .bufFull s

/-- WBITS (R105): the value is A with zeros above (R72). -/
def execWbits (value : Word) (width : BitVec 6) (s : State) : Host.Outcome State Fault Refusal :=
  unlessFaulted s <|
    if bitsFit s width.toNat then .next (writeField value.toNat width.toNat s) else raise .bufFull s

end Sys2Proof.Machine
end

