-- ==== Sys2Proof/Machine/Channel.lean ====
section
/-! DEFINITION. The channel commands SETCH, REWIND, SCAN, EMIT, EMITR (42_channel_dispatch.md). -/

namespace Sys2Proof.Machine

/-- SETCH (R144): SEL = 3 is illegal, so NONE cannot be written (R30, R77). -/
def execSetch (channel : BitVec 2) (s : State) : Host.Outcome State Fault Refusal :=
  if channel = chanNone then runIllegal s
  else unlessFaulted s (.next { s with chan := channel })

/-- REWIND (R145). -/
def execRewind (s : State) : Host.Outcome State Fault Refusal :=
  unlessFaulted s (.next { s with prevOnset := 0#32 })

/-- SCAN (R146): NOCHAN, then ORDER, then DICT_FULL, all before the first insertion (D19). -/
def execScan (onset duration pitch : Word) (s : State) : Host.Outcome State Fault Refusal :=
  unlessFaulted s <|
    if s.chan = chanNone then raise .nochan s
    else
      match nextDelta onset s with
      | none => raise .order s
      | some d =>
        let fields := chanFields s.chan
        let val := byField d duration pitch
        if anyLacksRoom fields val s then raise .dictFull s
        else .next { insertFields fields val s with prevOnset := onset }

/-- EMIT (R147): NOCHAN, then ORDER, then MISS, then BUF_FULL, all before the first bit. -/
def execEmit (onset duration pitch : Word) (s : State) : Host.Outcome State Fault Refusal :=
  unlessFaulted s <|
    if s.chan = chanNone then raise .nochan s
    else
      match nextDelta onset s with
      | none => raise .order s
      | some d =>
        match lookupRanks (chanFields s.chan) (byField d duration pitch) s with
        | none => raise .miss s
        | some ranks =>
          if bitsFit s (bitsPerNote s.chan) then .next { writeFields ranks s with prevOnset := onset }
          else raise .bufFull s

/-- EMITR (R148): NOCHAN, then BUF_FULL. -/
def execEmitr (rdelta rlength rpitch : Word) (s : State) : Host.Outcome State Fault Refusal :=
  unlessFaulted s <|
    if s.chan = chanNone then raise .nochan s
    else if bitsFit s (bitsPerNote s.chan) then
      .next (writeFields (givenRanks (chanFields s.chan) (byField rdelta rlength rpitch)) s)
    else raise .bufFull s

end Sys2Proof.Machine
end

