-- ==== Sys2Proof/Machine/Dictionary.lean ====
section
/-! DEFINITION. The dictionary commands DINS, DCLR, DRD, DSZ, RANK (41_dictionary.md). -/

namespace Sys2Proof.Machine

/-- DINS (R123). -/
def execDins (field : BitVec 2) (value : Word) (s : State) : Host.Outcome State Fault Refusal :=
  withField field s fun f =>
    unlessFaulted s <|
      if lacksRoom s f value then raise .dictFull s else .next (insertValue f value s)

/-- DCLR (R124). -/
def execDclr (s : State) : Host.Outcome State Fault Refusal :=
  unlessFaulted s (.next (clearDicts s))

/-- DRD (R125); it runs while FAULTED (R184). -/
def execDrd (field : BitVec 2) (index : Word) (s : State) : Host.Outcome State Fault Refusal :=
  withField field s fun f =>
    match (s.dict f)[index.toNat]? with
    | some v => .next (respond v s)
    | none => .next (respondNothing s)

/-- DSZ (R126); it runs while FAULTED (R184). -/
def execDsz (field : BitVec 2) (s : State) : Host.Outcome State Fault Refusal :=
  withField field s fun f => .next (respond (BitVec.ofNat 32 (s.dict f).length) s)

/-- RANK (R127); it runs while FAULTED (R184). -/
def execRank (field : BitVec 2) (value : Word) (s : State) : Host.Outcome State Fault Refusal :=
  withField field s fun f =>
    match dictRank value (s.dict f) with
    | some k => .next (respond (BitVec.ofNat 32 k) s)
    | none => .next (respondNothing s)

end Sys2Proof.Machine
end

