-- ==== Sys2Proof/Machine/Readout.lean ====
section
/-! DEFINITION. The readout and control commands NOP, RDST, RDB (43_readout_control.md). All three run while FAULTED
(R184). -/

namespace Sys2Proof.Machine

/-- NOP (R170). -/
def execNop (s : State) : Host.Outcome State Fault Refusal := .next s

/-- The value RDST reads: 0 the status word, 1 LEN, 2 PREV_ONSET, 3 TB (R171). LEN and TB fit in 32 bits while
LEN <= BUF_CAP <= 2^29 (R28; log 12). -/
def statusValue (selector : BitVec 2) (s : State) : Word :=
  match selector.toNat with
  | 0 => statusWord s
  | 1 => BitVec.ofNat 32 s.len
  | 2 => s.prevOnset
  | _ => BitVec.ofNat 32 s.tb

/-- RDST (R171). -/
def execRdst (selector : BitVec 2) (s : State) : Host.Outcome State Fault Refusal :=
  .next (respond (statusValue selector s) s)

/-- RDB (R172): an address at or beyond LEN is no fault. -/
def execRdb (address : Word) (s : State) : Host.Outcome State Fault Refusal :=
  match readByte s address.toNat with
  | some b => .next (respond (b.setWidth 32) s)
  | none => .next (respondNothing s)

end Sys2Proof.Machine
end

