-- ==== Sys2Proof/Machine/Dispatch.lean ====
section
/-! DEFINITION. `exec`: one arm for each constructor of `Instr`, each a direct call of the instruction's meaning. -/

namespace Sys2Proof.Machine

/-- What the block does with a decoded command (R182). -/
def exec (i : Instr) (s : State) : Host.Outcome State Fault Refusal :=
  match i with
  | .nop => Sys2Proof.Machine.execNop s
  | .clrs => Sys2Proof.Machine.execClrs s
  | .wbit bit => Sys2Proof.Machine.execWbit bit s
  | .wbits value width => Sys2Proof.Machine.execWbits value width s
  | .setch channel => Sys2Proof.Machine.execSetch channel s
  | .dins field value => Sys2Proof.Machine.execDins field value s
  | .dclr => Sys2Proof.Machine.execDclr s
  | .drd field index => Sys2Proof.Machine.execDrd field index s
  | .dsz field => Sys2Proof.Machine.execDsz field s
  | .rank field value => Sys2Proof.Machine.execRank field value s
  | .scan onset duration pitch => Sys2Proof.Machine.execScan onset duration pitch s
  | .rewind => Sys2Proof.Machine.execRewind s
  | .emit onset duration pitch => Sys2Proof.Machine.execEmit onset duration pitch s
  | .emitr rdelta rlength rpitch => Sys2Proof.Machine.execEmitr rdelta rlength rpitch s
  | .rdb address => Sys2Proof.Machine.execRdb address s
  | .rdst selector => Sys2Proof.Machine.execRdst selector s

end Sys2Proof.Machine
end

