-- ==== Sys2Proof/Machine/Command.lean ====
section
/-! DEFINITION. What the block does with one move of the host: a command word on CMD (R182, R201) or RST (R200). -/

namespace Sys2Proof.Machine

/-- `Step(word)` of R182 for a word presented on CMD: a command before the first RST has no meaning (R201); a legal word
runs, an illegal one raises ILLEGAL, and both are subject to the faulted state (R184). -/
def runCommand (word : CmdWord) (s : State) : Host.Outcome State Fault Refusal :=
  if !s.rstDone then .refused .commandBeforeReset
  else
    match decode word with
    | .ok i => exec i s
    | .error _ => runIllegal s

/-- One move of the host (R22, R212). -/
def takeMove (move : HostMove) (s : State) : Host.Outcome State Fault Refusal :=
  match move with
  | .cmd word => runCommand word s
  | .rst => .next (applyReset s)

/-- One step of the block: the oldest move of the host that is still to come, or nothing at all while the host makes none
(R20, R192: the block is idle between commands and keeps all state; log 2). -/
def advance (s : State) : Host.Outcome State Fault Refusal :=
  match s.input with
  | [] => .next s
  | move :: rest => takeMove move { s with input := rest }

/-- The host presents one more word on CMD, to be taken before every other move (log 1). -/
def presentWord (word : CmdWord) (s : State) : State := { s with input := .cmd word :: s.input }

end Sys2Proof.Machine
end

