-- ==== Sys2Proof/Machine/Step.lean ====
section
/-! DEFINITION. `step`, and the word the host places for the next step to take. -/

namespace Sys2Proof.Machine

/-- One step of the machine (R20, R60): one move of the host, taken whole. -/
def step (s : State) : Host.Outcome State Fault Refusal := advance s

/-- `s` with the word of an opcode-table row presented on CMD as the very next move (log 1). A row of more than 128 bits is
no command word (R79) and is not presented (log 11). -/
def State.withFetchWord (s : State) (nbits w : Nat) : State :=
  match tableWord nbits w with
  | some word => presentWord word s
  | none => s

end Sys2Proof.Machine
end

