-- ==== Sys2Proof/Machine/Assembly.lean ====
section
/-! DEFINITION. The assembly syntax (R80) and the pseudo-instructions (R81). A line is a list of characters; its value is
the commands it stands for, none where the line is an assembly error. Lexical details R80 does not give: log 13. -/

namespace Sys2Proof.Machine

/-! ## Pseudo-instructions (R81) -/

/-- `BEGIN ch`: CLRS; DCLR; SETCH ch; REWIND. -/
def expandBegin (ch : BitVec 2) : List Instr := [.clrs, .dclr, .setch ch, .rewind]

/-- `PASS2`: REWIND. -/
def expandPass2 : List Instr := [.rewind]

/-- `WBYTE v`: WBITS v, 8. -/
def expandWbyte (v : Word) : List Instr := [.wbits v 8#6]

/-- `WZERO n`: WBITS 0, n. -/
def expandWzero (n : BitVec 6) : List Instr := [.wbits 0#32 n]

/-- The SCAN of a note. -/
def scanNote (note : Note) : Instr := .scan note.onset note.duration note.pitch

/-- The EMIT of a note. -/
def emitNote (note : Note) : Instr := .emit note.onset note.duration note.pitch

/-- `ENCODE ch, notes`: BEGIN ch; a SCAN for each note; REWIND; an EMIT for each note (R81, R153). -/
def expandEncode (ch : BitVec 2) (notes : List Note) : List Instr :=
  expandBegin ch ++ notes.map scanNote ++ [.rewind] ++ notes.map emitNote

/-! ## Characters to tokens -/

/-- The tokens of a line. -/
inductive Token where
  | word (chars : List Char)
  | comma
  | lparen
  | rparen
deriving DecidableEq, Repr

/-- A token list with the word read so far (its characters last first) in front. -/
def flushWord (read : List Char) (rest : List Token) : List Token :=
  if read.isEmpty then rest else .word read.reverse :: rest

/-- The tokens of a line; `;` to the end of the line is a comment (R80). -/
def lexFrom : List Char → List Char → List Token
  | [], read => flushWord read []
  | c :: cs, read =>
    if c = ';' then flushWord read []
    else if c = ' ' ∨ c = '\t' then flushWord read (lexFrom cs [])
    else if c = ',' then flushWord read (.comma :: lexFrom cs [])
    else if c = '(' then flushWord read (.lparen :: lexFrom cs [])
    else if c = ')' then flushWord read (.rparen :: lexFrom cs [])
    else lexFrom cs (c :: read)

/-- The words of an operand list, separated by commas. -/
def laterOperands : List Token → Option (List (List Char))
  | [] => some []
  | .comma :: .word a :: rest => (laterOperands rest).map (a :: ·)
  | _ => none

/-- The words of an operand list that may be empty. -/
def operandWords : List Token → Option (List (List Char))
  | [] => some []
  | .word a :: rest => (laterOperands rest).map (a :: ·)
  | _ => none

/-! ## Operands -/

/-- The value of a digit in a base of at most 16. -/
def digitValue (base : Nat) (c : Char) : Option Nat :=
  let n := c.toNat
  let d := if 48 ≤ n ∧ n ≤ 57 then n - 48
    else if 97 ≤ n ∧ n ≤ 102 then n - 87
    else if 65 ≤ n ∧ n ≤ 70 then n - 55
    else base
  if d < base then some d else none

/-- The value of digits after `value`. -/
def digitsValue (base : Nat) : List Char → Nat → Option Nat
  | [], value => some value
  | c :: cs, value =>
    match digitValue base c with
    | some d => digitsValue base cs (value * base + d)
    | none => none

/-- A number, decimal or `0x` hexadecimal (R80). -/
def numberValue : List Char → Option Nat
  | '0' :: 'x' :: d :: ds => digitsValue 16 (d :: ds) 0
  | d :: ds => digitsValue 10 (d :: ds) 0
  | [] => none

/-- A number of at most `n` bits; out of range is an assembly error (R80). -/
def numberOf (n : Nat) (cs : List Char) : Option (BitVec n) :=
  match numberValue cs with
  | some v => if v < 2 ^ n then some (BitVec.ofNat n v) else none
  | none => none

/-- `noise`, `triangle`, `pulse` (R75, R80). -/
def channelNamed (cs : List Char) : Option (BitVec 2) :=
  match String.ofList cs with
  | "noise" => some 0#2
  | "triangle" => some 1#2
  | "pulse" => some 2#2
  | _ => none

/-- `delta`, `length`, `pitch` (R75, R80). -/
def fieldNamed (cs : List Char) : Option (BitVec 2) :=
  match String.ofList cs with
  | "delta" => some 0#2
  | "length" => some 1#2
  | "pitch" => some 2#2
  | _ => none

/-- `status`, `len`, `prev`, `bits` (R75, R80). -/
def selectorNamed (cs : List Char) : Option (BitVec 2) :=
  match String.ofList cs with
  | "status" => some 0#2
  | "len" => some 1#2
  | "prev" => some 2#2
  | "bits" => some 3#2
  | _ => none

/-! ## Lines -/

/-- A command with no operand. -/
def asm0 (i : Instr) (ops : List (List Char)) : Option (List Instr) :=
  match ops with
  | [] => some [i]
  | _ => none

/-- A command with one operand. -/
def asm1 {α : Type} (read : List Char → Option α) (make : α → List Instr) (ops : List (List Char)) :
    Option (List Instr) :=
  match ops with
  | [a] => (read a).map make
  | _ => none

/-- A command with two operands. -/
def asm2 {α β : Type} (read : List Char → Option α) (read' : List Char → Option β) (make : α → β → Instr)
    (ops : List (List Char)) : Option (List Instr) :=
  match ops with
  | [a, b] =>
    match read a, read' b with
    | some x, some y => some [make x y]
    | _, _ => none
  | _ => none

/-- A command with three 32-bit operands. -/
def asm3 (make : Word → Word → Word → Instr) (ops : List (List Char)) : Option (List Instr) :=
  match ops with
  | [a, b, c] =>
    match numberOf 32 a, numberOf 32 b, numberOf 32 c with
    | some x, some y, some z => some [make x y z]
    | _, _, _ => none
  | _ => none

/-- The notes of ENCODE: each a comma and `(onset,duration,pitch)` (R81). -/
def encodeNotes : List Token → Option (List Note)
  | [] => some []
  | .comma :: .lparen :: .word o :: .comma :: .word d :: .comma :: .word p :: .rparen :: rest =>
    match numberOf 32 o, numberOf 32 d, numberOf 32 p, encodeNotes rest with
    | some onset, some duration, some pitch, some notes => some ({ onset, duration, pitch } :: notes)
    | _, _, _, _ => none
  | _ => none

/-- The operands of ENCODE: a channel, then notes (R81). -/
def asmEncode : List Token → Option (List Instr)
  | .word ch :: rest =>
    match channelNamed ch, encodeNotes rest with
    | some c, some notes => some (expandEncode c notes)
    | _, _ => none
  | _ => none

/-- A line with a plain operand list, by its mnemonic (R80, R81). -/
def asmPlain (mnemonic : String) (ops : List (List Char)) : Option (List Instr) :=
  match mnemonic with
  | "NOP" => asm0 .nop ops
  | "CLRS" => asm0 .clrs ops
  | "WBIT" => asm1 (numberOf 1) (fun b => [.wbit b]) ops
  | "WBITS" => asm2 (numberOf 32) (numberOf 6) .wbits ops
  | "SETCH" => asm1 channelNamed (fun c => [.setch c]) ops
  | "DINS" => asm2 fieldNamed (numberOf 32) .dins ops
  | "DCLR" => asm0 .dclr ops
  | "DRD" => asm2 fieldNamed (numberOf 32) .drd ops
  | "DSZ" => asm1 fieldNamed (fun f => [.dsz f]) ops
  | "RANK" => asm2 fieldNamed (numberOf 32) .rank ops
  | "SCAN" => asm3 .scan ops
  | "REWIND" => asm0 .rewind ops
  | "EMIT" => asm3 .emit ops
  | "EMITR" => asm3 .emitr ops
  | "RDB" => asm1 (numberOf 32) (fun a => [.rdb a]) ops
  | "RDST" => asm1 selectorNamed (fun s => [.rdst s]) ops
  | "WBYTE" => asm1 (numberOf 32) expandWbyte ops
  | "BEGIN" => asm1 channelNamed expandBegin ops
  | "PASS2" => (asm0 .nop ops).map fun _ => expandPass2
  | "WZERO" => asm1 (numberOf 6) expandWzero ops
  | _ => none

/-- The commands a line stands for; an empty line or a comment stands for none of them. -/
def assembleLine (line : List Char) : Option (List Instr) :=
  match lexFrom line [] with
  | [] => some []
  | .word m :: rest =>
    if String.ofList m = "ENCODE" then asmEncode rest
    else
      match operandWords rest with
      | some ops => asmPlain (String.ofList m) ops
      | none => none
  | _ => none

end Sys2Proof.Machine
end

