-- ==== Sys2Proof/Machine/System.lean ====
section
/-! DEFINITION. Several independent instances (R8 N_INST, R63, R190). `core` is one of them. -/

namespace Sys2Proof.Machine

/-- A system of `n` instances; `n` is the parameter N_INST, 1 or more (R8). Each instance is what its own run has come to:
its state, with its own host moves on its own ports, or the refusal its run ended in. There is nothing beside them (R190;
log 9). -/
abbrev System (n : Nat) := Vector (Host.Outcome State Fault Refusal) n

/-- One step of one instance. The model's choice (log 9): an instance whose command was refused (R201: 'it has no meaning
for it') takes no further step, as in `Host.Core.run`. -/
def instanceStep (o : Host.Outcome State Fault Refusal) : Host.Outcome State Fault Refusal :=
  match o with
  | .next s => step s
  | .fault r => .fault r
  | .refused r => .refused r

/-- One instance takes one step; the others do nothing (R190: 'stepped in any interleaving'). The model's choice (log 9):
where the step is refused (R201), the refusal is that instance's alone and no other instance is touched (R63: 'a command
to one never affects another'). -/
def systemStep {n : Nat} (k : Fin n) (sys : System n) : System n := sys.set k (instanceStep sys[k])

/-- The steps of a schedule, in order: each entry names the instance that steps. The model's choice (log 9): a refused
instance does not end the system's run, and the later steps of the others are taken. -/
def systemRun {n : Nat} : List (Fin n) → System n → System n
  | [], sys => sys
  | k :: schedule, sys => systemRun schedule (systemStep k sys)

/-- Every instance as RST leaves it. -/
def systemReset (n : Nat) : System n := Vector.replicate n (.next State.reset)

end Sys2Proof.Machine
end

