-- ==== Sys2Proof/Safety.lean ====
section
/-! DEFINITION. The terms claims are stated in: the stream and the output (R50, R55, R173), the invariant of the state
(R24, R27, R33, R34, R120), which commands read and which may raise what (R181, R184), runs of commands, and the source's
ChannelEncoder as functions on a note list (R153). -/

namespace Sys2Proof.Machine

/-! ## The stream and the output -/

/-- Stream bit k: bit `k mod 8` of byte `k div 8` of BUF (R50). -/
def streamBit (s : State) (k : Nat) : Bool := (memRead s.mem (k / 8)).getLsbD (k % 8)

/-- The n stream bits from position p on, in order. -/
def streamSlice (s : State) (p n : Nat) : List Bool := (List.range n).map fun i => streamBit s (p + i)

/-- The output byte sequence BUF[0], …, BUF[LEN-1] (R54, R107, R173). -/
def output (s : State) : List Byte := (List.range s.len).map (memRead s.mem)

/-- BUF read as the little-endian integer N (R55). -/
def bufValue (s : State) : Nat := bytesValue (output s)

/-- The end state of a run is valid: FAULTED = 0 (R211). -/
def validEnd (s : State) : Bool := !s.faulted

/-! ## The invariant -/

/-- A dictionary is strictly ascending in unsigned order and holds at most DICT_CAP entries (R120). -/
abbrev dictWf (cap : Nat) (d : List Word) : Prop := d.Pairwise (· < ·) ∧ d.length ≤ cap

/-- What R24 to R28 say of BUF and the cursor: BUF in canonical form with no byte listed at or beyond LEN, LEN within
BUF_CAP, and the accumulator's bits from BIT_OFFSET up zero. -/
abbrev bufferWf (s : State) : Prop :=
  memWf s.mem ∧ (∀ c ∈ s.mem, c.1 < s.len) ∧ s.len ≤ s.cfg.bufCap ∧
    memRead s.mem s.byteIndex >>> s.bitOffset.toNat = 0#8

/-- FAULT_CODE is 0 while not FAULTED, and one of 1 to 6 while FAULTED (R34, R180). -/
abbrev faultWf (s : State) : Prop :=
  (s.faulted = false → s.faultCode = 0#3) ∧ (s.faulted = true → s.faultCode ≠ 0#3 ∧ s.faultCode ≠ 7#3)

/-- The invariant of every state reachable from reset (R24, R27, R33, R34, R120), with the parameters in their ranges
(R8). -/
abbrev StateInv (s : State) : Prop :=
  s.cfg.wf ∧ bufferWf s ∧
    dictWf s.cfg.dictCap s.dictDelta ∧ dictWf s.cfg.dictCap s.dictLength ∧ dictWf s.cfg.dictCap s.dictPitch ∧
    (s.resp.v = false → s.resp.data = 0#32) ∧ faultWf s

/-! ## Kinds of command -/

/-- The six commands that run while FAULTED (R184). -/
def runsWhileFaulted : Instr → Bool
  | .nop => true
  | .clrs => false
  | .wbit _ => false
  | .wbits _ _ => false
  | .setch _ => false
  | .dins _ _ => false
  | .dclr => false
  | .drd _ _ => true
  | .dsz _ => true
  | .rank _ _ => true
  | .scan _ _ _ => false
  | .rewind => false
  | .emit _ _ _ => false
  | .emitr _ _ _ => false
  | .rdb _ => true
  | .rdst _ => true

/-- The five commands that write RESP (R33). -/
def writesResp (i : Instr) : Bool := runsWhileFaulted i && i != .nop

/-- The commands that write one note's fields to the stream (R149). -/
def isEmission : Instr → Bool
  | .emit _ _ _ => true
  | .emitr _ _ _ => true
  | .nop => false
  | .clrs => false
  | .wbit _ => false
  | .wbits _ _ => false
  | .setch _ => false
  | .dins _ _ => false
  | .dclr => false
  | .drd _ _ => false
  | .dsz _ => false
  | .rank _ _ => false
  | .scan _ _ _ => false
  | .rewind => false
  | .rdb _ => false
  | .rdst _ => false

/-- Which faults a legal command can raise beside the ILLEGAL of an illegal word (R181). -/
def mayRaise : Instr → List FaultCause
  | .nop => []
  | .clrs => []
  | .wbit _ => [.bufFull]
  | .wbits _ _ => [.bufFull]
  | .setch _ => []
  | .dins _ _ => [.dictFull]
  | .dclr => []
  | .drd _ _ => []
  | .dsz _ => []
  | .rank _ _ => []
  | .scan _ _ _ => [.nochan, .order, .dictFull]
  | .rewind => []
  | .emit _ _ _ => [.nochan, .order, .miss, .bufFull]
  | .emitr _ _ _ => [.nochan, .bufFull]
  | .rdb _ => []
  | .rdst _ => []

/-- A field is one of those its channel uses (R143). -/
def usesField (ch : BitVec 2) (f : DictField) : Bool := (chanFields ch).any fun fw => fw.1 == f

/-! ## Runs -/

/-- The commands of a list, one after the other (R60). -/
def execAll : List Instr → State → Host.Outcome State Fault Refusal
  | [], s => .next s
  | i :: rest, s =>
    match exec i s with
    | .next t => execAll rest t
    | .fault r => .fault r
    | .refused r => .refused r

/-! ## The source's ChannelEncoder (R153), on note lists -/

/-- Step 1: the deltas of a note list, the first relative to `prev` (R142). -/
def noteDeltas : Word → List Note → List Word
  | _, [] => []
  | prev, n :: ns => (n.onset - prev) :: noteDeltas n.onset ns

/-- The values of one field over a note list. -/
def fieldValues (notes : List Note) : DictField → List Word
  | .delta => noteDeltas 0#32 notes
  | .length => notes.map (·.duration)
  | .pitch => notes.map (·.pitch)

/-- Step 2: the sorted set of distinct values, 'collect the set of distinct values …; sort each set ascending' (R121). -/
def sortedDistinct (vs : List Word) : List Word := vs.dedup.mergeSort fun x y => decide (x ≤ y)

/-- The dictionary of a field: empty for a field the channel does not use (R143). -/
def refDict (ch : BitVec 2) (notes : List Note) (f : DictField) : List Word :=
  if usesField ch f then sortedDistinct (fieldValues notes f) else []

/-- The low `w` bits of `v`, least significant first (R101). -/
def fieldBits (v w : Nat) : List Bool := (List.range w).map fun i => v.testBit i

/-- Step 3 for one note: the fields of the channel in write order, each the rank of its value in its dictionary. -/
def rankBits (fields : List (DictField × Nat)) (dict : DictField → List Word) (val : DictField → Word) : List Bool :=
  fields.flatMap fun fw => fieldBits ((dict fw.1).idxOf (val fw.1)) fw.2

/-- Step 3: the bitstream of a note list, with no separators (R149). -/
def refStream (ch : BitVec 2) (notes : List Note) : List Bool :=
  (notes.zip (noteDeltas 0#32 notes)).flatMap fun nd =>
    rankBits (chanFields ch) (refDict ch notes) (byField nd.2 nd.1.duration nd.1.pitch)

/-- The number whose bits, least significant first, are given. -/
def bitsValue : List Bool → Nat
  | [] => 0
  | b :: bs => b.toNat + 2 * bitsValue bs

/-- A bitstream as bytes, filled from bit 0, `length div 8 + 1` of them (R54, R65). -/
def packBits (bits : List Bool) : List Byte :=
  (List.range (bits.length / 8 + 1)).map fun j => BitVec.ofNat 8 (bitsValue ((bits.drop (8 * j)).take 8))

/-- The onsets of a note list do not decrease (R205). -/
abbrev sortedByOnset (notes : List Note) : Prop := notes.Pairwise fun m n => m.onset ≤ n.onset

end Sys2Proof.Machine
end

