-- ==== Sys2Proof/Certificates/Slice0/Obligations.lean ====
section
/-! DEFINITION. The statements for the provers, each `def Obligations.<Name> : Prop`; OBLIGATIONS.json lists them. -/

open Sys2Proof Sys2Proof.Machine

/-! ## Encoding -/

/-- Decoding the word of a legal command gives the command back, at every value of every operand (R70, R72, R74). -/
def Obligations.DecodeOfEncodeIsTheCommand : Prop :=
  ∀ i : Instr, i.wf = true → decode (encode i) = .ok i

/-- A word that decodes is the word of the command it decodes to, and that command is legal: every bit of a legal word has
its one meaning (R74, R77). -/
def Obligations.EncodeOfDecodeIsTheWord : Prop :=
  ∀ (word : CmdWord) (i : Instr), decode word = .ok i → encode i = word ∧ i.wf = true

/-- R77 whole: which words are illegal, that no word matches two rows, that the only NOP is the zero word, and that an
illegal word raises ILLEGAL with no other effect. -/
def Obligations.IllegalWordsAreExactlyThese : Prop :=
  (∀ word : CmdWord, (∃ e, decode word = .error e) ↔
    (∀ op : Opcode, rowMatches (rowOf op) word = false) ∨
      (∃ op ∈ [Opcode.setch, .dins, .drd, .dsz, .rank], rowMatches (rowOf op) word = true ∧ selOf word = 3#2)) ∧
  (∀ (word : CmdWord) (op op' : Opcode),
    rowMatches (rowOf op) word = true → rowMatches (rowOf op') word = true → op = op') ∧
  (∀ word : CmdWord, decode word = .ok .nop ↔ word = 0#128) ∧
  (∀ (s : State) (word : CmdWord) (rest : List HostMove) (e : DecodeError),
    s.rstDone = true → s.faulted = false → s.input = .cmd word :: rest → decode word = .error e →
      step s = .next { s with input := rest, faulted := true, faultCode := 1#3 })

/-- R71: byte i of the byte form holds bits 8i+7 : 8i, for i from 0 to 15; the word comes back from its bytes, every 16 bytes
are the form of one word, and no other number of bytes is a command. -/
def Obligations.ByteFormIsLittleEndian : Prop :=
  (∀ word : CmdWord, (bytesOfWord word).length = 16 ∧
    (∀ i, i < 16 → (bytesOfWord word)[i]? = some (word.extractLsb' (8 * i) 8)) ∧
    wordOfBytes (bytesOfWord word) = some word ∧ decodeBytes (bytesOfWord word) = decode word) ∧
  (∀ bs : List Byte, bs.length = 16 → ∃ word, wordOfBytes bs = some word ∧ bytesOfWord word = bs) ∧
  (∀ bs : List Byte, bs.length ≠ 16 → decodeBytes bs = .error (.notSixteenBytes bs.length))

/-- Words written out from R70 and R74 decode to the commands they stand for. -/
def Obligations.WordsOfTheSpecDecode : Prop :=
  decode 0x30000003000000000000000000000005#128 = .ok (.wbits 5#32 3#6) ∧
  decode 0x500000800000000000000000000001b8#128 = .ok (.dins 2#2 440#32) ∧
  decode 0xa0000000000001b80000000500000000#128 = .ok (.scan 0#32 5#32 440#32) ∧
  decode 0xf0000040000000000000000000000000#128 = .ok (.rdst 1#2) ∧
  decode 0x400000c0000000000000000000000000#128 = .error (.selThree "SETCH") ∧
  decode 0x20000000000000000000000000000002#128 = .error (.reservedBits "WBIT")

/-- 'The assembler never emits an illegal word' (R80): every command of a line that assembles is legal, and its word decodes
to it. The lexical details of a line are the model's (log 13). -/
def Obligations.AssemblerEmitsOnlyLegalWords : Prop :=
  ∀ (line : List Char) (is : List Instr), assembleLine line = some is →
    ∀ i ∈ is, i.wf = true ∧ decode (encode i) = .ok i

/-! ## The step and reset -/

/-- A step runs the decoded command: `exec` on the state with the host's move taken off. The word a table row's bits stand
for runs the same way. While the host makes no move the block keeps all state (R20, R182, R192). That the host's moves stand
in the state, and that a step with none is idle, is the model's (log 1, log 2). -/
def Obligations.StepRunsTheDecodedCommand : Prop :=
  (∀ (s : State) (word : CmdWord) (rest : List HostMove) (i : Instr), s.rstDone = true →
    s.input = .cmd word :: rest → decode word = .ok i → step s = exec i { s with input := rest }) ∧
  (∀ (s : State) (nbits w : Nat) (i : Instr), s.rstDone = true → decodeTableWord nbits w = some i →
    step (s.withFetchWord nbits w) = exec i s) ∧
  (∀ s : State, s.input = [] → step s = .next s)

/-- R200: RST puts every piece of state at its reset value, whatever it was; nothing is left unspecified. -/
def Obligations.RstLeavesTheResetValues : Prop :=
  ∀ (s : State) (rest : List HostMove), s.input = .rst :: rest →
    ∃ t, step s = .next t ∧ output t = [0x00#8] ∧ t.len = 1 ∧ t.bitOffset = 0#3 ∧ t.ovf = false ∧ t.chan = 3#2 ∧
      t.prevOnset = 0#32 ∧ t.dict .delta = [] ∧ t.dict .length = [] ∧ t.dict .pitch = [] ∧
      t.resp = { v := false, data := 0#32 } ∧ t.faulted = false ∧ t.faultCode = 0#3 ∧ faultOut t = false

/-- The state the model calls reset holds the reset value of every register (R23). -/
def Obligations.ResetStateHoldsTheResetValues : Prop :=
  output State.reset = [0x00#8] ∧ State.reset.len = 1 ∧ State.reset.bitOffset = 0#3 ∧ State.reset.ovf = false ∧
    State.reset.chan = 3#2 ∧ State.reset.prevOnset = 0#32 ∧ State.reset.dict .delta = [] ∧
    State.reset.dict .length = [] ∧ State.reset.dict .pitch = [] ∧ State.reset.resp = { v := false, data := 0#32 } ∧
    State.reset.faulted = false ∧ State.reset.faultCode = 0#3 ∧ statusWord State.reset = 0x00000030#32

/-- R201: a command presented before the first RST is refused, whatever the unspecified state is; RST is taken in any state.
That 'before the first RST' is the field `rstDone`, and what RST leaves in the model's own fields, is the model's (log 3,
log 4, log 1). -/
def Obligations.CommandBeforeResetIsRefused : Prop :=
  (∀ (s : State) (word : CmdWord) (rest : List HostMove), s.rstDone = false → s.input = .cmd word :: rest →
    step s = .refused .commandBeforeReset) ∧
  (∀ (s : State) (rest : List HostMove), s.input = .rst :: rest → step s = .next (State.resetWith s.cfg rest)) ∧
  (∀ (cfg : Config) (rest : List HostMove), (State.resetWith cfg rest).rstDone = true ∧
    (State.resetWith cfg rest).cfg = cfg ∧ (State.resetWith cfg rest).input = rest)

/-- After an RST no step stops the machine, and a refusal is only ever that of a command before the first RST (R188, R201).
That a latched fault is a next state is the model's reading of R183 and R184 (log 6). -/
def Obligations.NoStepStopsAfterReset : Prop :=
  (∀ s : State, s.rstDone = true → ∃ t, step s = .next t ∧ t.rstDone = true) ∧
  (∀ (s : State) (r : Refusal), step s = .refused r →
    r = .commandBeforeReset ∧ s.rstDone = false ∧ ∃ word rest, s.input = .cmd word :: rest) ∧
  (∀ (s : State) (r : Fault), step s ≠ .fault r)

/-- BUF_CAP and DICT_CAP are parameters, not state: no step changes them; a command leaves the model's own fields alone
(R8, R23). That the parameters stand in a field of the model's state is the model's choice (log 4). -/
def Obligations.ParametersNeverChange : Prop :=
  (∀ s t : State, step s = .next t → t.cfg = s.cfg) ∧
  (∀ (i : Instr) (s t : State), exec i s = .next t →
    t.cfg = s.cfg ∧ t.input = s.input ∧ t.rstDone = s.rstDone)

/-! ## The invariant -/

/-- The invariant holds of the state RST leaves, for any parameters in their ranges, and of the reset state, whose two
parameters are the model's (log 4). -/
def Obligations.ResetMeetsTheInvariant : Prop :=
  (∀ (cfg : Config) (input : List HostMove), cfg.wf → StateInv (State.resetWith cfg input)) ∧ StateInv State.reset

/-- Every step keeps the invariant: BUF canonical and within BUF_CAP with its unused bits zero (R24, R27), the dictionaries
strictly ascending and within DICT_CAP (R120), RESP and the fault code as R33, R34 and R180 say. -/
def Obligations.EveryStepKeepsTheInvariant : Prop :=
  ∀ s t : State, StateInv s → step s = .next t → StateInv t

/-- R65: LEN = TB div 8 + 1 always, the last byte is 0x00 when BIT_OFFSET = 0, and LEN is one more than ceil(TB / 8) exactly
when TB is a multiple of 8. The unused high bits of the last byte are zero (R27), and TB < 2^32 (R28). -/
def Obligations.OutputLengthAndTrailingByte : Prop :=
  ∀ s : State, StateInv s →
    s.len = s.tb / 8 + 1 ∧ (output s).length = s.tb / 8 + 1 ∧
    (s.bitOffset = 0#3 → (output s).getLast? = some 0x00#8) ∧
    (s.tb % 8 = 0 → s.len = (s.tb + 7) / 8 + 1) ∧ (s.tb % 8 ≠ 0 → s.len = (s.tb + 7) / 8) ∧
    (∀ k, s.bitOffset.toNat ≤ k → k < 8 → (memRead s.mem (s.len - 1)).getLsbD k = false) ∧
    s.tb < 2 ^ 32

/-- Stream bits are written in increasing order and never rewritten, except that CLRS clears the stream: any other command
leaves every stream bit below TB, every complete byte, and the order of TB (R27, R50). -/
def Obligations.WrittenStreamBitsNeverChange : Prop :=
  ∀ (i : Instr) (s t : State), StateInv s → i ≠ .clrs → exec i s = .next t →
    s.tb ≤ t.tb ∧ (∀ k, k < s.tb → streamBit t k = streamBit s k) ∧
    (∀ j, j < s.len - 1 → memRead t.mem j = memRead s.mem j)

/-! ## Faults -/

/-- R183: a command that faults leaves the state before it, plus the latch and nothing else; FAULT_OUT becomes 1. -/
def Obligations.FaultsArePrecise : Prop :=
  ∀ s t : State, s.faulted = false → step s = .next t → t.faulted = true →
    ∃ move rest c, s.input = move :: rest ∧
      t = { s with input := rest, faulted := true, faultCode := faultCodeOf c } ∧ faultOut t = true

/-- R181: a legal command raises only the faults listed for it, and an illegal word only ILLEGAL; each listed fault of each
command does occur, and each OP has illegal words. In particular a truncation, a RANK miss and an index out of range raise
none. -/
def Obligations.CommandsRaiseOnlyTheirFaults : Prop :=
  (∀ (i : Instr) (s t : State), i.wf = true → s.faulted = false → exec i s = .next t → t.faulted = true →
    ∃ c ∈ mayRaise i, t.faultCode = faultCodeOf c) ∧
  (∀ (s t : State) (word : CmdWord) (rest : List HostMove), s.faulted = false → s.input = .cmd word :: rest →
    step s = .next t → t.faulted = true →
    (∃ e, decode word = .error e ∧ t.faultCode = faultCodeOf .illegal) ∨
      ∃ i, decode word = .ok i ∧ ∃ c ∈ mayRaise i, t.faultCode = faultCodeOf c) ∧
  (∀ (i : Instr) (c : FaultCause), c ∈ mayRaise i → ∃ i' s t, opcodeOfInstr i' = opcodeOfInstr i ∧ StateInv s ∧
    s.faulted = false ∧ exec i' s = .next t ∧ t.faulted = true ∧ t.faultCode = faultCodeOf c) ∧
  (∀ op : Opcode, ∃ word e, opcodeOf (opOf word) = op ∧ decode word = .error e)

/-- R184: while FAULTED a legal NOP, DRD, DSZ, RANK, RDB or RDST runs and changes RESP at most; every other word, legal or
illegal, is discarded with no effect at all. -/
def Obligations.FaultedBlockOnlyReads : Prop :=
  ∀ (s : State) (word : CmdWord) (rest : List HostMove), s.rstDone = true → s.faulted = true →
    s.input = .cmd word :: rest →
    (∀ i, decode word = .ok i → runsWhileFaulted i = true →
      ∃ r, step s = .next { s with input := rest, resp := r } ∧ step s = exec i { s with input := rest }) ∧
    (∀ i, decode word = .ok i → runsWhileFaulted i = false → step s = .next { s with input := rest }) ∧
    (∀ e, decode word = .error e → step s = .next { s with input := rest })

/-- R185: only RST clears FAULTED and FAULT_CODE, and no second fault replaces the first one's code. -/
def Obligations.OnlyRstLeavesAFault : Prop :=
  ∀ s t : State, s.faulted = true → step s = .next t →
    ((∃ rest, s.input = .rst :: rest) → t.faulted = false ∧ t.faultCode = 0#3) ∧
    ((∀ rest, s.input ≠ .rst :: rest) → t.faulted = true ∧ t.faultCode = s.faultCode)

/-- A term whose SEL is 3 where SEL is a field select or a channel is the ILLEGAL of R77 (b): it raises ILLEGAL with no other
effect, or is discarded while FAULTED. That such a term can be written is the model's choice (log 8). -/
def Obligations.SelThreeIsIllegal : Prop :=
  ∀ (i : Instr) (s : State), i.wf = false →
    (∃ m, decode (encode i) = .error (.selThree m)) ∧
    (s.faulted = false → exec i s = .next { s with faulted := true, faultCode := 1#3 }) ∧
    (s.faulted = true → exec i s = .next s)

/-! ## BitWriter commands -/

/-- WBIT (R104) completes unless BIT_OFFSET = 7 and LEN = BUF_CAP: one stream bit at TB, zero bits after it up to the end of
BUF, OVF and everything else unchanged, no byte changed outside the current one and the appended one. -/
def Obligations.WbitWritesOneStreamBit : Prop :=
  ∀ (s : State) (bit : BitVec 1), StateInv s → s.faulted = false → ¬ (s.bitOffset = 7#3 ∧ s.len = s.cfg.bufCap) →
    ∃ t, exec (.wbit bit) s = .next t ∧ t.tb = s.tb + 1 ∧ streamBit t s.tb = (bit == 1#1) ∧
      (∀ k, k < s.tb → streamBit t k = streamBit s k) ∧
      (∀ k, t.tb ≤ k → k < 8 * t.len → streamBit t k = false) ∧
      t = { s with mem := t.mem, byteIndex := t.byteIndex, bitOffset := t.bitOffset } ∧
      (∀ a, ¬ (s.byteIndex ≤ a ∧ a ≤ s.byteIndex + (s.bitOffset.toNat + 1) / 8) →
        memRead t.mem a = memRead s.mem a)

/-- WBITS (R105) completes when its bits fit: TB grows by W, the little-endian value of BUF grows by (A mod 2^W) * 2^TB,
which is the same as ORing (A mod 2^W) << TB into it (R55), OVF is set when A >= 2^W and never cleared, everything else is
unchanged, no byte changed outside those it writes. -/
def Obligations.WbitsAddsTheFieldToTheStream : Prop :=
  ∀ (s : State) (value : Word) (width : BitVec 6), StateInv s → s.faulted = false →
    s.len + (s.bitOffset.toNat + width.toNat) / 8 ≤ s.cfg.bufCap →
    ∃ t, exec (.wbits value width) s = .next t ∧ t.tb = s.tb + width.toNat ∧
      bufValue t = bufValue s + (value.toNat % 2 ^ width.toNat) * 2 ^ s.tb ∧
      bufValue t = bufValue s ||| ((value.toNat % 2 ^ width.toNat) <<< s.tb) ∧
      t.ovf = (s.ovf || decide (2 ^ width.toNat ≤ value.toNat)) ∧
      t = { s with mem := t.mem, byteIndex := t.byteIndex, bitOffset := t.bitOffset, ovf := t.ovf } ∧
      (∀ a, ¬ (s.byteIndex ≤ a ∧ a ≤ s.byteIndex + (s.bitOffset.toNat + width.toNat) / 8) →
        memRead t.mem a = memRead s.mem a)

/-- R54, R101: a field of width w written at stream position p occupies stream bits p to p+w-1, its bit i at stream bit p+i;
bits of A above 31 are written as zeros (R72). -/
def Obligations.FieldBitsGoLeastSignificantFirst : Prop :=
  ∀ (s t : State) (value : Word) (width : BitVec 6), StateInv s → s.faulted = false →
    exec (.wbits value width) s = .next t → t.faulted = false →
    (∀ i, i < width.toNat → streamBit t (s.tb + i) = value.toNat.testBit i) ∧
    (∀ k, k < s.tb → streamBit t k = streamBit s k)

/-- R102: WBIT, WBITS, EMITR and EMIT raise BUF_FULL before writing any bit when LEN + (BIT_OFFSET + n) div 8 > BUF_CAP. -/
def Obligations.WritesThatDoNotFitRaiseBufFull : Prop :=
  ∀ s : State, s.faulted = false →
    (∀ bit, s.cfg.bufCap < s.len + (s.bitOffset.toNat + 1) / 8 →
      exec (.wbit bit) s = .next { s with faulted := true, faultCode := 6#3 }) ∧
    (∀ value width, s.cfg.bufCap < s.len + (s.bitOffset.toNat + width.toNat) / 8 →
      exec (.wbits value width) s = .next { s with faulted := true, faultCode := 6#3 }) ∧
    (∀ a b c, s.chan ≠ 3#2 → s.cfg.bufCap < s.len + (s.bitOffset.toNat + bitsPerNote s.chan) / 8 →
      exec (.emitr a b c) s = .next { s with faulted := true, faultCode := 6#3 }) ∧
    (∀ onset duration pitch, s.chan ≠ 3#2 → s.prevOnset ≤ onset →
      (∀ f, usesField s.chan f = true → byField (onset - s.prevOnset) duration pitch f ∈ s.dict f) →
      s.cfg.bufCap < s.len + (s.bitOffset.toNat + bitsPerNote s.chan) / 8 →
      exec (.emit onset duration pitch) s = .next { s with faulted := true, faultCode := 6#3 })

/-- CLRS (R106): BUF = [0x00], LEN = 1, BIT_OFFSET = 0, OVF = 0, every stored bit gone, nothing else changed; it does not
clear a fault. -/
def Obligations.ClrsClearsTheStreamOnly : Prop :=
  ∀ s : State,
    (s.faulted = false →
      ∃ t, exec .clrs s = .next t ∧ output t = [0x00#8] ∧ t.len = 1 ∧ t.bitOffset = 0#3 ∧ t.ovf = false ∧
        (∀ a, memRead t.mem a = 0x00#8) ∧
        t = { s with mem := t.mem, byteIndex := t.byteIndex, bitOffset := t.bitOffset, ovf := t.ovf }) ∧
    (s.faulted = true → exec .clrs s = .next s)

/-- The truncation law (R110): WBITS v, w leaves the same BUF, LEN and BIT_OFFSET as WBITS (v mod 2^w), w; only OVF may
differ. -/
def Obligations.TruncationLaw : Prop :=
  ∀ (s : State) (v : Word) (w : BitVec 6), ∃ t t',
    exec (.wbits v w) s = .next t ∧ exec (.wbits (BitVec.ofNat 32 (v.toNat % 2 ^ w.toNat)) w) s = .next t' ∧
      output t = output t' ∧ t.len = t'.len ∧ t.bitOffset = t'.bitOffset ∧ t = { t' with ovf := t.ovf }

/-- The concatenation law (R111), where the bits of both fields fit in BUF_CAP: two fields one after the other are one field
of the two widths together. -/
def Obligations.ConcatenationLaw : Prop :=
  ∀ (s : State) (v1 v2 : Word) (w1 w2 : BitVec 6), s.faulted = false → w1.toNat + w2.toNat ≤ 63 →
    v1.toNat % 2 ^ w1.toNat + (v2.toNat % 2 ^ w2.toNat) * 2 ^ w1.toNat < 2 ^ 32 →
    s.len + (s.bitOffset.toNat + (w1.toNat + w2.toNat)) / 8 ≤ s.cfg.bufCap →
    ∃ t1 t2 t, exec (.wbits v1 w1) s = .next t1 ∧ exec (.wbits v2 w2) t1 = .next t2 ∧
      exec (.wbits (BitVec.ofNat 32 (v1.toNat % 2 ^ w1.toNat + (v2.toNat % 2 ^ w2.toNat) * 2 ^ w1.toNat))
        (BitVec.ofNat 6 (w1.toNat + w2.toNat))) s = .next t ∧
      output t = output t2 ∧ t.len = t2.len ∧ t.bitOffset = t2.bitOffset ∧ t = { t2 with ovf := t.ovf }

/-- R29: OVF is sticky, cleared only by CLRS and RST, and has no effect on any other state: a command other than the status
read RDST does the same, OVF aside, whatever OVF was. -/
def Obligations.OvfIsStickyAndInert : Prop :=
  (∀ (i : Instr) (s t : State), s.ovf = true → i ≠ .clrs → exec i s = .next t → t.ovf = true) ∧
  (∀ (i : Instr) (s : State) (b : Bool), (∀ sel, i ≠ .rdst sel) → ∃ t t',
    exec i s = .next t ∧ exec i { s with ovf := b } = .next t' ∧ t' = { t with ovf := t'.ovf })

/-! ## Dictionary commands -/

/-- DINS (R121, R123) completes when the value is already there or the dictionary has room: the dictionary is then the old
set with the value in it, still strictly ascending; a value already there changes nothing; a new one shifts the rank of
every larger entry up by one; the other dictionaries and everything else are unchanged. -/
def Obligations.DinsInsertsInOrder : Prop :=
  ∀ (s : State) (f : DictField) (v : Word), s.faulted = false → (s.dict f).Pairwise (· < ·) →
    (v ∈ s.dict f ∨ (s.dict f).length ≠ s.cfg.dictCap) →
    ∃ t, exec (.dins (selOfField f) v) s = .next t ∧
      (∀ x, x ∈ t.dict f ↔ x = v ∨ x ∈ s.dict f) ∧ (t.dict f).Pairwise (· < ·) ∧
      (v ∈ s.dict f → t.dict f = s.dict f) ∧
      (v ∉ s.dict f → ∀ x ∈ s.dict f, v < x → (t.dict f).idxOf x = (s.dict f).idxOf x + 1) ∧
      (∀ g, g ≠ f → t.dict g = s.dict g) ∧
      t = { s with dictDelta := t.dictDelta, dictLength := t.dictLength, dictPitch := t.dictPitch }

/-- DINS of a new value into a dictionary that already holds DICT_CAP entries raises DICT_FULL (R123). -/
def Obligations.DinsIntoAFullDictionaryFaults : Prop :=
  ∀ (s : State) (f : DictField) (v : Word), s.faulted = false → v ∉ s.dict f →
    (s.dict f).length = s.cfg.dictCap →
    exec (.dins (selOfField f) v) s = .next { s with faulted := true, faultCode := 5#3 }

/-- DCLR (R124): all three dictionaries empty, nothing else changed. -/
def Obligations.DclrEmptiesTheDictionaries : Prop :=
  ∀ s : State, s.faulted = false →
    ∃ t, exec .dclr s = .next t ∧ (∀ f, t.dict f = []) ∧
      t = { s with dictDelta := t.dictDelta, dictLength := t.dictLength, dictPitch := t.dictPitch }

/-- DRD (R125), also while FAULTED: the entry of an index in range, (0, 0) of one out of range; only RESP changes. -/
def Obligations.DrdReadsAnEntry : Prop :=
  ∀ (s : State) (f : DictField) (k : Word),
    (∀ h : k.toNat < (s.dict f).length,
      exec (.drd (selOfField f) k) s = .next { s with resp := { v := true, data := (s.dict f)[k.toNat] } }) ∧
    ((s.dict f).length ≤ k.toNat →
      exec (.drd (selOfField f) k) s = .next { s with resp := { v := false, data := 0#32 } })

/-- DSZ (R126), also while FAULTED: the size of a dictionary, which fits in 32 bits; only RESP changes. -/
def Obligations.DszReadsTheSize : Prop :=
  ∀ (s : State) (f : DictField), (s.dict f).length ≤ s.cfg.dictCap → s.cfg.dictCap ≤ 2 ^ 32 - 1 →
    ∃ r : Word, r.toNat = (s.dict f).length ∧
      exec (.dsz (selOfField f)) s = .next { s with resp := { v := true, data := r } }

/-- RANK (R120, R127), also while FAULTED: the unique index of a value that is there, (0, 0) on a miss, which is no fault;
only RESP changes. -/
def Obligations.RankReadsTheIndex : Prop :=
  ∀ (s : State) (f : DictField) (v : Word), dictWf s.cfg.dictCap (s.dict f) → s.cfg.dictCap ≤ 2 ^ 32 - 1 →
    (v ∈ s.dict f → ∃ r : Word, (s.dict f)[r.toNat]? = some v ∧
      (∀ k, (s.dict f)[k]? = some v → k = r.toNat) ∧
      r.toNat = (s.dict f).countP (fun x => x < v) ∧
      exec (.rank (selOfField f) v) s = .next { s with resp := { v := true, data := r } }) ∧
    (v ∉ s.dict f →
      exec (.rank (selOfField f) v) s = .next { s with resp := { v := false, data := 0#32 } })

/-- The round trip of R129: RANK then DRD gives the value back, and DRD then RANK gives the index back. -/
def Obligations.RankAndDrdAreInverse : Prop :=
  ∀ (s : State) (f : DictField), StateInv s →
    (∀ v ∈ s.dict f, ∃ t u k, exec (.rank (selOfField f) v) s = .next t ∧ t.resp = { v := true, data := k } ∧
      exec (.drd (selOfField f) k) t = .next u ∧ u.resp = { v := true, data := v }) ∧
    (∀ k : Word, k.toNat < (s.dict f).length → ∃ t u v,
      exec (.drd (selOfField f) k) s = .next t ∧ t.resp = { v := true, data := v } ∧
      exec (.rank (selOfField f) v) t = .next u ∧ u.resp = { v := true, data := k })

/-- R128: from an empty dictionary, any sequence of insertions whose distinct values fit leaves the ascending list of the
distinct values inserted, whatever their order and repetition, and changes nothing else. -/
def Obligations.InsertionsBuildTheSortedSet : Prop :=
  ∀ (s : State) (f : DictField) (vs : List Word), s.faulted = false → s.dict f = [] →
    vs.dedup.length ≤ s.cfg.dictCap →
    ∃ t, execAll (vs.map fun v => .dins (selOfField f) v) s = .next t ∧ t.dict f = sortedDistinct vs ∧
      (∀ g, g ≠ f → t.dict g = s.dict g) ∧
      t = { s with dictDelta := t.dictDelta, dictLength := t.dictLength, dictPitch := t.dictPitch }

/-! ## Channel commands -/

/-- SETCH (R144): CHAN <- SEL, nothing else changed. -/
def Obligations.SetchSelectsTheChannel : Prop :=
  ∀ (s : State) (channel : BitVec 2), s.faulted = false → channel ≠ 3#2 →
    exec (.setch channel) s = .next { s with chan := channel }

/-- REWIND (R145): PREV_ONSET <- 0, nothing else changed. -/
def Obligations.RewindZeroesPrevOnset : Prop :=
  ∀ s : State, s.faulted = false → exec .rewind s = .next { s with prevOnset := 0#32 }

/-- Only SETCH writes CHAN, and no command writes NONE to it (R23, R30). -/
def Obligations.OnlySetchWritesChan : Prop :=
  ∀ (i : Instr) (s t : State), exec i s = .next t →
    ((∀ ch, i ≠ .setch ch) → t.chan = s.chan) ∧ (t.chan = 3#2 → s.chan = 3#2)

/-- PREV_ONSET is written by SCAN and EMIT when they complete, with the note's onset, by REWIND with 0, and by no other
command (R31). -/
def Obligations.PrevOnsetIsTheLastNotesOnset : Prop :=
  ∀ (i : Instr) (s t : State), s.faulted = false → exec i s = .next t → t.faulted = false →
    (∀ o d p, i = .scan o d p ∨ i = .emit o d p → t.prevOnset = o) ∧
    (i = .rewind → t.prevOnset = 0#32) ∧
    ((∀ o d p, i ≠ .scan o d p ∧ i ≠ .emit o d p) → i ≠ .rewind → t.prevOnset = s.prevOnset)

/-- SCAN, EMIT and EMITR raise NOCHAN while CHAN = NONE, before any other check of theirs (R30, R182). -/
def Obligations.NoChannelFaults : Prop :=
  ∀ (s : State) (a b c : Word), s.faulted = false → s.chan = 3#2 →
    exec (.scan a b c) s = .next { s with faulted := true, faultCode := 2#3 } ∧
    exec (.emit a b c) s = .next { s with faulted := true, faultCode := 2#3 } ∧
    exec (.emitr a b c) s = .next { s with faulted := true, faultCode := 2#3 }

/-- SCAN and EMIT raise ORDER when the onset is below PREV_ONSET, before looking at a dictionary or at BUF (R142, R182). -/
def Obligations.DecreasingOnsetFaults : Prop :=
  ∀ (s : State) (onset duration pitch : Word), s.faulted = false → s.chan ≠ 3#2 → onset < s.prevOnset →
    exec (.scan onset duration pitch) s = .next { s with faulted := true, faultCode := 3#3 } ∧
    exec (.emit onset duration pitch) s = .next { s with faulted := true, faultCode := 3#3 }

/-- SCAN raises DICT_FULL, and inserts nothing, when some used field's value is new to a dictionary that holds DICT_CAP
entries (R146). -/
def Obligations.ScanIntoAFullDictionaryFaults : Prop :=
  ∀ (s : State) (onset duration pitch : Word) (f : DictField), s.faulted = false → s.chan ≠ 3#2 →
    s.prevOnset ≤ onset → usesField s.chan f = true →
    byField (onset - s.prevOnset) duration pitch f ∉ s.dict f → (s.dict f).length = s.cfg.dictCap →
    exec (.scan onset duration pitch) s = .next { s with faulted := true, faultCode := 5#3 }

/-- SCAN (R146) completes when a channel is set, the onset is not below PREV_ONSET and every used dictionary holds the note's
value or has room: each used dictionary then holds its value too and is still strictly ascending, the unused ones are
unchanged, PREV_ONSET is the onset, and nothing else changes (no stream bit is written). -/
def Obligations.ScanCollectsTheNotesValues : Prop :=
  ∀ (s : State) (onset duration pitch : Word), s.faulted = false → s.chan ≠ 3#2 → s.prevOnset ≤ onset →
    (∀ f, usesField s.chan f = true → (s.dict f).Pairwise (· < ·) ∧
      (byField (onset - s.prevOnset) duration pitch f ∈ s.dict f ∨ (s.dict f).length ≠ s.cfg.dictCap)) →
    ∃ t, exec (.scan onset duration pitch) s = .next t ∧ t.prevOnset = onset ∧
      (∀ f, usesField s.chan f = true → (t.dict f).Pairwise (· < ·) ∧
        ∀ x, x ∈ t.dict f ↔ x = byField (onset - s.prevOnset) duration pitch f ∨ x ∈ s.dict f) ∧
      (∀ f, usesField s.chan f = false → t.dict f = s.dict f) ∧
      t = { s with dictDelta := t.dictDelta, dictLength := t.dictLength, dictPitch := t.dictPitch,
                   prevOnset := t.prevOnset }

/-- On the noise channel the duration and pitch operands are ignored, whatever the outcome, and the length and pitch
dictionaries are not touched (R143). -/
def Obligations.NoiseIgnoresDurationAndPitch : Prop :=
  ∀ (s : State) (a b c b' c' : Word), s.chan = 0#2 →
    exec (.scan a b c) s = exec (.scan a b' c') s ∧ exec (.emit a b c) s = exec (.emit a b' c') s ∧
    exec (.emitr a b c) s = exec (.emitr a b' c') s ∧
    (∀ t, exec (.scan a b c) s = .next t → t.dict .length = s.dict .length ∧ t.dict .pitch = s.dict .pitch)

/-- EMIT raises MISS, writing nothing, when some used field's value is not in its dictionary, before it looks at the room in
BUF (R147, R182). -/
def Obligations.EmitOfAMissingValueFaults : Prop :=
  ∀ (s : State) (onset duration pitch : Word) (f : DictField), s.faulted = false → s.chan ≠ 3#2 →
    s.prevOnset ≤ onset → usesField s.chan f = true →
    byField (onset - s.prevOnset) duration pitch f ∉ s.dict f →
    exec (.emit onset duration pitch) s = .next { s with faulted := true, faultCode := 4#3 }

/-- EMIT (R147) completes when a channel is set, the onset is not below PREV_ONSET, every used value is in its dictionary and
the note's bits fit: the stream gains the ranks of the values in the channel's field widths, in field order, least
significant bit first (a rank too wide is truncated, R151), OVF is set when a rank is too wide and never cleared, PREV_ONSET
is the onset, and nothing else changes, no byte outside those it writes. -/
def Obligations.EmitWritesTheRanks : Prop :=
  ∀ (s : State) (onset duration pitch : Word), StateInv s → s.faulted = false → s.chan ≠ 3#2 → s.prevOnset ≤ onset →
    (∀ f, usesField s.chan f = true → byField (onset - s.prevOnset) duration pitch f ∈ s.dict f) →
    s.len + (s.bitOffset.toNat + bitsPerNote s.chan) / 8 ≤ s.cfg.bufCap →
    ∃ t, exec (.emit onset duration pitch) s = .next t ∧ t.tb = s.tb + bitsPerNote s.chan ∧
      streamSlice t s.tb (bitsPerNote s.chan) =
        rankBits (chanFields s.chan) s.dict (byField (onset - s.prevOnset) duration pitch) ∧
      (∀ k, k < s.tb → streamBit t k = streamBit s k) ∧
      (t.ovf = true ↔ s.ovf = true ∨ ∃ f w, (f, w) ∈ chanFields s.chan ∧
        2 ^ w ≤ (s.dict f).idxOf (byField (onset - s.prevOnset) duration pitch f)) ∧
      t.prevOnset = onset ∧
      t = { s with mem := t.mem, byteIndex := t.byteIndex, bitOffset := t.bitOffset, ovf := t.ovf,
                   prevOnset := t.prevOnset } ∧
      (∀ a, ¬ (s.byteIndex ≤ a ∧ a ≤ s.byteIndex + (s.bitOffset.toNat + bitsPerNote s.chan) / 8) →
        memRead t.mem a = memRead s.mem a)

/-- EMITR (R148) completes when a channel is set and the note's bits fit: the stream gains the given ranks in the channel's
field widths, as EMIT's; PREV_ONSET and the dictionaries are neither read nor written. -/
def Obligations.EmitrWritesTheGivenRanks : Prop :=
  ∀ (s : State) (rdelta rlength rpitch : Word), StateInv s → s.faulted = false → s.chan ≠ 3#2 →
    s.len + (s.bitOffset.toNat + bitsPerNote s.chan) / 8 ≤ s.cfg.bufCap →
    ∃ t, exec (.emitr rdelta rlength rpitch) s = .next t ∧ t.tb = s.tb + bitsPerNote s.chan ∧
      streamSlice t s.tb (bitsPerNote s.chan) =
        (chanFields s.chan).flatMap (fun fw => fieldBits (byField rdelta rlength rpitch fw.1).toNat fw.2) ∧
      (∀ k, k < s.tb → streamBit t k = streamBit s k) ∧
      (t.ovf = true ↔ s.ovf = true ∨ ∃ f w, (f, w) ∈ chanFields s.chan ∧
        2 ^ w ≤ (byField rdelta rlength rpitch f).toNat) ∧
      t = { s with mem := t.mem, byteIndex := t.byteIndex, bitOffset := t.bitOffset, ovf := t.ovf } ∧
      (∀ a, ¬ (s.byteIndex ≤ a ∧ a ≤ s.byteIndex + (s.bitOffset.toNat + bitsPerNote s.chan) / 8) →
        memRead t.mem a = memRead s.mem a)

/-- R149, R150: after CLRS, n completed EMIT or EMITR commands on one channel leave TB = n * BPN(ch) and LEN = TB div 8 + 1, and
the j-th of them (from 0) holds stream bits j*BPN(ch) to (j+1)*BPN(ch) - 1: those bits read at the end as they did when it
completed. -/
def Obligations.NotesFillTheStreamInOrder : Prop :=
  ∀ (s s1 t : State) (notes : List Instr), StateInv s → exec .clrs s = .next s1 →
    (∀ i ∈ notes, isEmission i = true) → execAll notes s1 = .next t → t.faulted = false →
    t.tb = notes.length * bitsPerNote s.chan ∧ t.len = t.tb / 8 + 1 ∧
    ∀ (j : Nat) (u v : State), j < notes.length → execAll (notes.take j) s1 = .next u →
      execAll (notes.take (j + 1)) s1 = .next v →
      u.tb = j * bitsPerNote s.chan ∧ v.tb = (j + 1) * bitsPerNote s.chan ∧
      streamSlice t (j * bitsPerNote s.chan) (bitsPerNote s.chan) =
        streamSlice v (j * bitsPerNote s.chan) (bitsPerNote s.chan)

/-- The channel encoding protocol (R153): for a channel and a note list in onset order whose distinct values fit in DICT_CAP
and whose bits fit in BUF_CAP, the command sequence ENCODE completes without fault and leaves in BUF and in the dictionaries
the output of the source's ChannelEncoder, computed on the note list (deltas, sorted distinct values, ranks, packed bits). -/
def Obligations.EncodeProtocolGivesTheChannelEncoding : Prop :=
  ∀ (s : State) (ch : BitVec 2) (notes : List Note), s.faulted = false → ch ≠ 3#2 → sortedByOnset notes →
    (∀ f, usesField ch f = true → (fieldValues notes f).dedup.length ≤ s.cfg.dictCap) →
    notes.length * bitsPerNote ch / 8 + 1 ≤ s.cfg.bufCap →
    ∃ t, execAll (expandEncode ch notes) s = .next t ∧ t.faulted = false ∧
      output t = packBits (refStream ch notes) ∧ ∀ f, t.dict f = refDict ch notes f

/-! ## Readout and control -/

/-- NOP (R170): no effect, in any state, FAULTED or not. -/
def Obligations.NopChangesNothing : Prop :=
  ∀ s : State, exec .nop s = .next s

/-- RDST (R35, R171), also while FAULTED: selector 0 reads the status word, each field in its bits and bits 31:10 zero; 1 reads
LEN, 2 PREV_ONSET, 3 TB, none of them cut; only RESP changes. -/
def Obligations.RdstReadsTheStatus : Prop :=
  ∀ s : State, StateInv s →
    (∃ r : Word, exec (.rdst 0#2) s = .next { s with resp := { v := true, data := r } } ∧
      r.extractLsb' 0 3 = s.bitOffset ∧ r.extractLsb' 3 1 = BitVec.ofBool s.ovf ∧ r.extractLsb' 4 2 = s.chan ∧
      r.extractLsb' 6 1 = BitVec.ofBool s.faulted ∧ r.extractLsb' 7 3 = s.faultCode ∧ r.extractLsb' 10 22 = 0#22) ∧
    (∃ r : Word, exec (.rdst 1#2) s = .next { s with resp := { v := true, data := r } } ∧ r.toNat = s.len) ∧
    exec (.rdst 2#2) s = .next { s with resp := { v := true, data := s.prevOnset } } ∧
    (∃ r : Word, exec (.rdst 3#2) s = .next { s with resp := { v := true, data := r } } ∧
      r.toNat = 8 * (s.len - 1) + s.bitOffset.toNat)

/-- RDB (R172), also while FAULTED: the byte at an address below LEN, (0, 0) at or beyond LEN, which is no fault; only RESP
changes. -/
def Obligations.RdbReadsAByte : Prop :=
  ∀ (s : State) (address : Word),
    (∀ h : address.toNat < (output s).length,
      exec (.rdb address) s =
        .next { s with resp := { v := true, data := ((output s)[address.toNat]).setWidth 32 } }) ∧
    ((output s).length ≤ address.toNat →
      exec (.rdb address) s = .next { s with resp := { v := false, data := 0#32 } })

/-- R58: a read command changes RESP at most, and reading the same thing again, with nothing but reads between, returns the
same value. -/
def Obligations.ReadsChangeOnlyRespAndRepeat : Prop :=
  (∀ (i : Instr) (s : State), i.wf = true → runsWhileFaulted i = true → ∃ r, exec i s = .next { s with resp := r }) ∧
  (∀ (i : Instr) (s : State) (between : List Instr), i.wf = true → writesResp i = true →
    (∀ j ∈ between, j.wf = true ∧ runsWhileFaulted j = true) →
    ∃ r u, exec i s = .next { s with resp := r } ∧ execAll between { s with resp := r } = .next u ∧
      exec i u = .next { s with resp := r })

/-- R33: only DRD, DSZ, RANK, RDB and RDST write RESP; every other command, and every fault, leaves it unchanged; a read that
finds nothing leaves RESP.DATA = 0. -/
def Obligations.OnlyReadsWriteResp : Prop :=
  ∀ (i : Instr) (s t : State), exec i s = .next t →
    (writesResp i = false → t.resp = s.resp) ∧
    (s.faulted = false → t.faulted = true → t.resp = s.resp) ∧
    (writesResp i = true → i.wf = true → t.resp.v = false → t.resp.data = 0#32)

/-! ## Instances -/

/-- R63, R190: instances share nothing. In any interleaving, whatever becomes of the others, an instance ends where the same
number of its own steps takes it alone, and an instance whose run has ended stays as it is. That an interleaving is a list
of instance numbers, and that a command refused before its instance's first RST (R201) ends that instance's run and no
other's, is the model's choice (log 9, log 3). -/
def Obligations.InstancesAreIndependent : Prop :=
  ∀ (n : Nat) (schedule : List (Fin n)) (sys : System n) (k : Fin n),
    (∀ s : State, sys[k] = .next s → (systemRun schedule sys)[k] = core.run (schedule.count k) s) ∧
    ((∀ s : State, sys[k] ≠ .next s) → (systemRun schedule sys)[k] = sys[k])
end

