-- ==== Sys2Proof/Laws/State.lean ====
section
/-! SUPPORT. One lemma per field per update of the state, so that no later proof unfolds a record update. -/

namespace Sys2Proof.Machine

/-! ## The OVF update of a field write (R103) -/

@[simp] theorem noteTruncation_cfg (v w : Nat) (s : State) : (noteTruncation v w s).cfg = s.cfg := rfl
@[simp] theorem noteTruncation_mem (v w : Nat) (s : State) : (noteTruncation v w s).mem = s.mem := rfl
@[simp] theorem noteTruncation_byteIndex (v w : Nat) (s : State) : (noteTruncation v w s).byteIndex = s.byteIndex := rfl
@[simp] theorem noteTruncation_bitOffset (v w : Nat) (s : State) : (noteTruncation v w s).bitOffset = s.bitOffset := rfl
@[simp] theorem noteTruncation_ovf (v w : Nat) (s : State) : (noteTruncation v w s).ovf = (s.ovf || truncates v w) := rfl
@[simp] theorem noteTruncation_chan (v w : Nat) (s : State) : (noteTruncation v w s).chan = s.chan := rfl
@[simp] theorem noteTruncation_prevOnset (v w : Nat) (s : State) : (noteTruncation v w s).prevOnset = s.prevOnset := rfl
@[simp] theorem noteTruncation_dictDelta (v w : Nat) (s : State) : (noteTruncation v w s).dictDelta = s.dictDelta := rfl
@[simp] theorem noteTruncation_dictLength (v w : Nat) (s : State) : (noteTruncation v w s).dictLength = s.dictLength := rfl
@[simp] theorem noteTruncation_dictPitch (v w : Nat) (s : State) : (noteTruncation v w s).dictPitch = s.dictPitch := rfl
@[simp] theorem noteTruncation_resp (v w : Nat) (s : State) : (noteTruncation v w s).resp = s.resp := rfl
@[simp] theorem noteTruncation_faulted (v w : Nat) (s : State) : (noteTruncation v w s).faulted = s.faulted := rfl
@[simp] theorem noteTruncation_faultCode (v w : Nat) (s : State) : (noteTruncation v w s).faultCode = s.faultCode := rfl
@[simp] theorem noteTruncation_rstDone (v w : Nat) (s : State) : (noteTruncation v w s).rstDone = s.rstDone := rfl
@[simp] theorem noteTruncation_input (v w : Nat) (s : State) : (noteTruncation v w s).input = s.input := rfl

/-! ## Append0 (R53) -/

@[simp] theorem append0_cfg (s : State) : (append0 s).cfg = s.cfg := rfl
@[simp] theorem append0_mem (s : State) : (append0 s).mem = memWrite s.mem s.len 0x00#8 := rfl
@[simp] theorem append0_byteIndex (s : State) : (append0 s).byteIndex = s.byteIndex + 1 := rfl
@[simp] theorem append0_bitOffset (s : State) : (append0 s).bitOffset = s.bitOffset := rfl
@[simp] theorem append0_ovf (s : State) : (append0 s).ovf = s.ovf := rfl
@[simp] theorem append0_chan (s : State) : (append0 s).chan = s.chan := rfl
@[simp] theorem append0_prevOnset (s : State) : (append0 s).prevOnset = s.prevOnset := rfl
@[simp] theorem append0_dictDelta (s : State) : (append0 s).dictDelta = s.dictDelta := rfl
@[simp] theorem append0_dictLength (s : State) : (append0 s).dictLength = s.dictLength := rfl
@[simp] theorem append0_dictPitch (s : State) : (append0 s).dictPitch = s.dictPitch := rfl
@[simp] theorem append0_resp (s : State) : (append0 s).resp = s.resp := rfl
@[simp] theorem append0_faulted (s : State) : (append0 s).faulted = s.faulted := rfl
@[simp] theorem append0_faultCode (s : State) : (append0 s).faultCode = s.faultCode := rfl
@[simp] theorem append0_rstDone (s : State) : (append0 s).rstDone = s.rstDone := rfl
@[simp] theorem append0_input (s : State) : (append0 s).input = s.input := rfl

/-! ## Clearing the stream (R106) -/

@[simp] theorem clearStream_cfg (s : State) : (clearStream s).cfg = s.cfg := rfl
@[simp] theorem clearStream_mem (s : State) : (clearStream s).mem = [] := rfl
@[simp] theorem clearStream_byteIndex (s : State) : (clearStream s).byteIndex = 0 := rfl
@[simp] theorem clearStream_bitOffset (s : State) : (clearStream s).bitOffset = 0#3 := rfl
@[simp] theorem clearStream_ovf (s : State) : (clearStream s).ovf = false := rfl
@[simp] theorem clearStream_chan (s : State) : (clearStream s).chan = s.chan := rfl
@[simp] theorem clearStream_prevOnset (s : State) : (clearStream s).prevOnset = s.prevOnset := rfl
@[simp] theorem clearStream_dictDelta (s : State) : (clearStream s).dictDelta = s.dictDelta := rfl
@[simp] theorem clearStream_dictLength (s : State) : (clearStream s).dictLength = s.dictLength := rfl
@[simp] theorem clearStream_dictPitch (s : State) : (clearStream s).dictPitch = s.dictPitch := rfl
@[simp] theorem clearStream_resp (s : State) : (clearStream s).resp = s.resp := rfl
@[simp] theorem clearStream_faulted (s : State) : (clearStream s).faulted = s.faulted := rfl
@[simp] theorem clearStream_faultCode (s : State) : (clearStream s).faultCode = s.faultCode := rfl
@[simp] theorem clearStream_rstDone (s : State) : (clearStream s).rstDone = s.rstDone := rfl
@[simp] theorem clearStream_input (s : State) : (clearStream s).input = s.input := rfl

/-! ## Emptying the dictionaries (R124) -/

@[simp] theorem clearDicts_cfg (s : State) : (clearDicts s).cfg = s.cfg := rfl
@[simp] theorem clearDicts_mem (s : State) : (clearDicts s).mem = s.mem := rfl
@[simp] theorem clearDicts_byteIndex (s : State) : (clearDicts s).byteIndex = s.byteIndex := rfl
@[simp] theorem clearDicts_bitOffset (s : State) : (clearDicts s).bitOffset = s.bitOffset := rfl
@[simp] theorem clearDicts_ovf (s : State) : (clearDicts s).ovf = s.ovf := rfl
@[simp] theorem clearDicts_chan (s : State) : (clearDicts s).chan = s.chan := rfl
@[simp] theorem clearDicts_prevOnset (s : State) : (clearDicts s).prevOnset = s.prevOnset := rfl
@[simp] theorem clearDicts_dictDelta (s : State) : (clearDicts s).dictDelta = [] := rfl
@[simp] theorem clearDicts_dictLength (s : State) : (clearDicts s).dictLength = [] := rfl
@[simp] theorem clearDicts_dictPitch (s : State) : (clearDicts s).dictPitch = [] := rfl
@[simp] theorem clearDicts_resp (s : State) : (clearDicts s).resp = s.resp := rfl
@[simp] theorem clearDicts_faulted (s : State) : (clearDicts s).faulted = s.faulted := rfl
@[simp] theorem clearDicts_faultCode (s : State) : (clearDicts s).faultCode = s.faultCode := rfl
@[simp] theorem clearDicts_rstDone (s : State) : (clearDicts s).rstDone = s.rstDone := rfl
@[simp] theorem clearDicts_input (s : State) : (clearDicts s).input = s.input := rfl

/-! ## A read that returns a datum (R33) -/

@[simp] theorem respond_cfg (data : Word) (s : State) : (respond data s).cfg = s.cfg := rfl
@[simp] theorem respond_mem (data : Word) (s : State) : (respond data s).mem = s.mem := rfl
@[simp] theorem respond_byteIndex (data : Word) (s : State) : (respond data s).byteIndex = s.byteIndex := rfl
@[simp] theorem respond_bitOffset (data : Word) (s : State) : (respond data s).bitOffset = s.bitOffset := rfl
@[simp] theorem respond_ovf (data : Word) (s : State) : (respond data s).ovf = s.ovf := rfl
@[simp] theorem respond_chan (data : Word) (s : State) : (respond data s).chan = s.chan := rfl
@[simp] theorem respond_prevOnset (data : Word) (s : State) : (respond data s).prevOnset = s.prevOnset := rfl
@[simp] theorem respond_dictDelta (data : Word) (s : State) : (respond data s).dictDelta = s.dictDelta := rfl
@[simp] theorem respond_dictLength (data : Word) (s : State) : (respond data s).dictLength = s.dictLength := rfl
@[simp] theorem respond_dictPitch (data : Word) (s : State) : (respond data s).dictPitch = s.dictPitch := rfl
@[simp] theorem respond_resp (data : Word) (s : State) : (respond data s).resp = { v := true, data := data } := rfl
@[simp] theorem respond_faulted (data : Word) (s : State) : (respond data s).faulted = s.faulted := rfl
@[simp] theorem respond_faultCode (data : Word) (s : State) : (respond data s).faultCode = s.faultCode := rfl
@[simp] theorem respond_rstDone (data : Word) (s : State) : (respond data s).rstDone = s.rstDone := rfl
@[simp] theorem respond_input (data : Word) (s : State) : (respond data s).input = s.input := rfl

/-! ## A read that finds nothing (R33) -/

@[simp] theorem respondNothing_cfg (s : State) : (respondNothing s).cfg = s.cfg := rfl
@[simp] theorem respondNothing_mem (s : State) : (respondNothing s).mem = s.mem := rfl
@[simp] theorem respondNothing_byteIndex (s : State) : (respondNothing s).byteIndex = s.byteIndex := rfl
@[simp] theorem respondNothing_bitOffset (s : State) : (respondNothing s).bitOffset = s.bitOffset := rfl
@[simp] theorem respondNothing_ovf (s : State) : (respondNothing s).ovf = s.ovf := rfl
@[simp] theorem respondNothing_chan (s : State) : (respondNothing s).chan = s.chan := rfl
@[simp] theorem respondNothing_prevOnset (s : State) : (respondNothing s).prevOnset = s.prevOnset := rfl
@[simp] theorem respondNothing_dictDelta (s : State) : (respondNothing s).dictDelta = s.dictDelta := rfl
@[simp] theorem respondNothing_dictLength (s : State) : (respondNothing s).dictLength = s.dictLength := rfl
@[simp] theorem respondNothing_dictPitch (s : State) : (respondNothing s).dictPitch = s.dictPitch := rfl
@[simp] theorem respondNothing_resp (s : State) : (respondNothing s).resp = { v := false, data := 0#32 } := rfl
@[simp] theorem respondNothing_faulted (s : State) : (respondNothing s).faulted = s.faulted := rfl
@[simp] theorem respondNothing_faultCode (s : State) : (respondNothing s).faultCode = s.faultCode := rfl
@[simp] theorem respondNothing_rstDone (s : State) : (respondNothing s).rstDone = s.rstDone := rfl
@[simp] theorem respondNothing_input (s : State) : (respondNothing s).input = s.input := rfl

/-! ## Fault entry (R183) -/

@[simp] theorem latchFault_cfg (c : FaultCause) (s : State) : (latchFault c s).cfg = s.cfg := rfl
@[simp] theorem latchFault_mem (c : FaultCause) (s : State) : (latchFault c s).mem = s.mem := rfl
@[simp] theorem latchFault_byteIndex (c : FaultCause) (s : State) : (latchFault c s).byteIndex = s.byteIndex := rfl
@[simp] theorem latchFault_bitOffset (c : FaultCause) (s : State) : (latchFault c s).bitOffset = s.bitOffset := rfl
@[simp] theorem latchFault_ovf (c : FaultCause) (s : State) : (latchFault c s).ovf = s.ovf := rfl
@[simp] theorem latchFault_chan (c : FaultCause) (s : State) : (latchFault c s).chan = s.chan := rfl
@[simp] theorem latchFault_prevOnset (c : FaultCause) (s : State) : (latchFault c s).prevOnset = s.prevOnset := rfl
@[simp] theorem latchFault_dictDelta (c : FaultCause) (s : State) : (latchFault c s).dictDelta = s.dictDelta := rfl
@[simp] theorem latchFault_dictLength (c : FaultCause) (s : State) : (latchFault c s).dictLength = s.dictLength := rfl
@[simp] theorem latchFault_dictPitch (c : FaultCause) (s : State) : (latchFault c s).dictPitch = s.dictPitch := rfl
@[simp] theorem latchFault_resp (c : FaultCause) (s : State) : (latchFault c s).resp = s.resp := rfl
@[simp] theorem latchFault_faulted (c : FaultCause) (s : State) : (latchFault c s).faulted = true := rfl
@[simp] theorem latchFault_faultCode (c : FaultCause) (s : State) : (latchFault c s).faultCode = faultCodeOf c := rfl
@[simp] theorem latchFault_rstDone (c : FaultCause) (s : State) : (latchFault c s).rstDone = s.rstDone := rfl
@[simp] theorem latchFault_input (c : FaultCause) (s : State) : (latchFault c s).input = s.input := rfl

/-! ## RST (R200) -/

@[simp] theorem applyReset_cfg (s : State) : (applyReset s).cfg = s.cfg := rfl
@[simp] theorem applyReset_mem (s : State) : (applyReset s).mem = [] := rfl
@[simp] theorem applyReset_byteIndex (s : State) : (applyReset s).byteIndex = 0 := rfl
@[simp] theorem applyReset_bitOffset (s : State) : (applyReset s).bitOffset = 0#3 := rfl
@[simp] theorem applyReset_ovf (s : State) : (applyReset s).ovf = false := rfl
@[simp] theorem applyReset_chan (s : State) : (applyReset s).chan = 3#2 := rfl
@[simp] theorem applyReset_prevOnset (s : State) : (applyReset s).prevOnset = 0#32 := rfl
@[simp] theorem applyReset_dictDelta (s : State) : (applyReset s).dictDelta = [] := rfl
@[simp] theorem applyReset_dictLength (s : State) : (applyReset s).dictLength = [] := rfl
@[simp] theorem applyReset_dictPitch (s : State) : (applyReset s).dictPitch = [] := rfl
@[simp] theorem applyReset_resp (s : State) : (applyReset s).resp = { v := false, data := 0#32 } := rfl
@[simp] theorem applyReset_faulted (s : State) : (applyReset s).faulted = false := rfl
@[simp] theorem applyReset_faultCode (s : State) : (applyReset s).faultCode = 0#3 := rfl
@[simp] theorem applyReset_rstDone (s : State) : (applyReset s).rstDone = true := rfl
@[simp] theorem applyReset_input (s : State) : (applyReset s).input = s.input := rfl

/-! ## A word presented on CMD (R22) -/

@[simp] theorem presentWord_cfg (word : CmdWord) (s : State) : (presentWord word s).cfg = s.cfg := rfl
@[simp] theorem presentWord_mem (word : CmdWord) (s : State) : (presentWord word s).mem = s.mem := rfl
@[simp] theorem presentWord_byteIndex (word : CmdWord) (s : State) : (presentWord word s).byteIndex = s.byteIndex := rfl
@[simp] theorem presentWord_bitOffset (word : CmdWord) (s : State) : (presentWord word s).bitOffset = s.bitOffset := rfl
@[simp] theorem presentWord_ovf (word : CmdWord) (s : State) : (presentWord word s).ovf = s.ovf := rfl
@[simp] theorem presentWord_chan (word : CmdWord) (s : State) : (presentWord word s).chan = s.chan := rfl
@[simp] theorem presentWord_prevOnset (word : CmdWord) (s : State) : (presentWord word s).prevOnset = s.prevOnset := rfl
@[simp] theorem presentWord_dictDelta (word : CmdWord) (s : State) : (presentWord word s).dictDelta = s.dictDelta := rfl
@[simp] theorem presentWord_dictLength (word : CmdWord) (s : State) : (presentWord word s).dictLength = s.dictLength := rfl
@[simp] theorem presentWord_dictPitch (word : CmdWord) (s : State) : (presentWord word s).dictPitch = s.dictPitch := rfl
@[simp] theorem presentWord_resp (word : CmdWord) (s : State) : (presentWord word s).resp = s.resp := rfl
@[simp] theorem presentWord_faulted (word : CmdWord) (s : State) : (presentWord word s).faulted = s.faulted := rfl
@[simp] theorem presentWord_faultCode (word : CmdWord) (s : State) : (presentWord word s).faultCode = s.faultCode := rfl
@[simp] theorem presentWord_rstDone (word : CmdWord) (s : State) : (presentWord word s).rstDone = s.rstDone := rfl
@[simp] theorem presentWord_input (word : CmdWord) (s : State) : (presentWord word s).input = .cmd word :: s.input := rfl

/-! ## Writing one dictionary (R32) -/

@[simp] theorem setDict_cfg (f : DictField) (d : List Word) (s : State) : (setDict f d s).cfg = s.cfg := by
  cases f <;> rfl
@[simp] theorem setDict_mem (f : DictField) (d : List Word) (s : State) : (setDict f d s).mem = s.mem := by
  cases f <;> rfl
@[simp] theorem setDict_byteIndex (f : DictField) (d : List Word) (s : State) : (setDict f d s).byteIndex = s.byteIndex := by
  cases f <;> rfl
@[simp] theorem setDict_bitOffset (f : DictField) (d : List Word) (s : State) : (setDict f d s).bitOffset = s.bitOffset := by
  cases f <;> rfl
@[simp] theorem setDict_ovf (f : DictField) (d : List Word) (s : State) : (setDict f d s).ovf = s.ovf := by
  cases f <;> rfl
@[simp] theorem setDict_chan (f : DictField) (d : List Word) (s : State) : (setDict f d s).chan = s.chan := by
  cases f <;> rfl
@[simp] theorem setDict_prevOnset (f : DictField) (d : List Word) (s : State) : (setDict f d s).prevOnset = s.prevOnset := by
  cases f <;> rfl
@[simp] theorem setDict_resp (f : DictField) (d : List Word) (s : State) : (setDict f d s).resp = s.resp := by
  cases f <;> rfl
@[simp] theorem setDict_faulted (f : DictField) (d : List Word) (s : State) : (setDict f d s).faulted = s.faulted := by
  cases f <;> rfl
@[simp] theorem setDict_faultCode (f : DictField) (d : List Word) (s : State) : (setDict f d s).faultCode = s.faultCode := by
  cases f <;> rfl
@[simp] theorem setDict_rstDone (f : DictField) (d : List Word) (s : State) : (setDict f d s).rstDone = s.rstDone := by
  cases f <;> rfl
@[simp] theorem setDict_input (f : DictField) (d : List Word) (s : State) : (setDict f d s).input = s.input := by
  cases f <;> rfl

@[simp] theorem setDict_dict_same (f : DictField) (d : List Word) (s : State) : (setDict f d s).dict f = d := by
  cases f <;> rfl

theorem setDict_dict_other {f g : DictField} (h : g ≠ f) (d : List Word) (s : State) :
    (setDict f d s).dict g = s.dict g := by
  cases f <;> cases g <;> first | rfl | exact absurd rfl h

/-- The whole of `setDict`: it writes the dictionaries and nothing else. -/
theorem setDict_frame (f : DictField) (d : List Word) (s : State) :
    setDict f d s = { s with dictDelta := (setDict f d s).dictDelta, dictLength := (setDict f d s).dictLength,
                             dictPitch := (setDict f d s).dictPitch } := by
  cases f <;> rfl

@[simp] theorem dict_of_respond (data : Word) (s : State) (f : DictField) : (respond data s).dict f = s.dict f := by
  cases f <;> rfl

/-! ## Views of the state -/

@[simp] theorem len_pos (s : State) : 0 < s.len := Nat.succ_pos _

theorem len_eq (s : State) : s.len = s.byteIndex + 1 := rfl

theorem tb_eq (s : State) : s.tb = 8 * s.byteIndex + s.bitOffset.toNat := rfl

theorem bitOffset_lt (s : State) : s.bitOffset.toNat < 8 := s.bitOffset.isLt

theorem tb_div (s : State) : s.tb / 8 = s.byteIndex := by
  have := bitOffset_lt s
  simp only [State.tb]; omega

theorem tb_mod (s : State) : s.tb % 8 = s.bitOffset.toNat := by
  have := bitOffset_lt s
  simp only [State.tb]; omega

end Sys2Proof.Machine
end

