-- ==== Sys2Proof/Laws/Dictionary.lean ====
section
/-! SUPPORT. What the dictionary operations do (R120 to R122), on lists in strictly ascending order. -/

namespace Sys2Proof.Machine

@[simp] theorem countBelow_nil (v : Word) : countBelow v [] = 0 := rfl

theorem countBelow_cons (v x : Word) (d : List Word) :
    countBelow v (x :: d) = countBelow v d + if x < v then 1 else 0 := by
  simp [countBelow, List.countP_cons]

/-- No entry is below a value that is not above the first of an ascending list. -/
theorem countBelow_eq_zero {v : Word} {d : List Word} (h : ∀ x ∈ d, ¬ x < v) : countBelow v d = 0 := by
  simpa [countBelow, List.countP_eq_zero] using h

theorem word_lt_trans {x y z : Word} (h : x < y) (h' : y < z) : x < z := BitVec.lt_trans h h'

theorem word_lt_irrefl (x : Word) : ¬ x < x := BitVec.lt_irrefl x

theorem word_eq_of_not_lt {x y : Word} (h : ¬ x < y) (h' : ¬ y < x) : x = y := by
  simp only [BitVec.lt_def] at *
  exact BitVec.eq_of_toNat_eq (by omega)

/-- In an ascending list the entries below a value stand in front of the others. -/
theorem take_drop_countBelow {d : List Word} (hd : d.Pairwise (· < ·)) (v : Word) :
    (∀ x ∈ d.take (countBelow v d), x < v) ∧ (∀ x ∈ d.drop (countBelow v d), ¬ x < v) := by
  induction d with
  | nil => simp
  | cons y d ih =>
    obtain ⟨hy, hd⟩ := List.pairwise_cons.mp hd
    rw [countBelow_cons]
    by_cases h : y < v
    · rw [if_pos h]
      refine ⟨fun x hx => ?_, (ih hd).2⟩
      rw [List.take_succ_cons] at hx
      rcases List.mem_cons.mp hx with rfl | hx
      · exact h
      · exact (ih hd).1 x hx
    · have hz : countBelow v d = 0 :=
        countBelow_eq_zero fun x hx hxv => h (word_lt_trans (hy x hx) hxv)
      rw [if_neg h, hz]
      refine ⟨by simp, fun x hx => ?_⟩
      rcases List.mem_cons.mp hx with rfl | hx
      · exact h
      · exact fun hxv => h (word_lt_trans (hy x hx) hxv)

/-! ## DictInsert -/

theorem dictInsert_of_mem {v : Word} {d : List Word} (h : v ∈ d) : dictInsert v d = d := if_pos h

theorem dictInsert_of_not_mem {v : Word} {d : List Word} (h : v ∉ d) :
    dictInsert v d = d.take (countBelow v d) ++ v :: d.drop (countBelow v d) := by
  simp [dictInsert, h]

/-- DictInsert adds its value to the set (R121). -/
theorem mem_dictInsert (v x : Word) (d : List Word) : x ∈ dictInsert v d ↔ x = v ∨ x ∈ d := by
  by_cases h : v ∈ d
  · rw [dictInsert_of_mem h]
    exact ⟨.inr, fun h' => h'.elim (· ▸ h) id⟩
  · rw [dictInsert_of_not_mem h]
    conv_rhs => rw [← List.take_append_drop (countBelow v d) d]
    simp only [List.mem_append, List.mem_cons]
    tauto

/-- DictInsert keeps the dictionary strictly ascending (R120, R121). -/
theorem dictInsert_ascending {d : List Word} (hd : d.Pairwise (· < ·)) (v : Word) :
    (dictInsert v d).Pairwise (· < ·) := by
  by_cases h : v ∈ d
  · rwa [dictInsert_of_mem h]
  · rw [dictInsert_of_not_mem h]
    obtain ⟨h1, h2⟩ := take_drop_countBelow hd v
    have habove : ∀ x ∈ d.drop (countBelow v d), v < x := fun x hx => by
      by_contra hvx
      have := word_eq_of_not_lt hvx (h2 x hx)
      exact h (this ▸ List.mem_of_mem_drop hx)
    refine List.pairwise_append.mpr ⟨hd.sublist (List.take_sublist _ _), ?_, ?_⟩
    · exact List.pairwise_cons.mpr ⟨habove, hd.sublist (List.drop_sublist _ _)⟩
    · intro x hx y hy
      rcases List.mem_cons.mp hy with rfl | hy
      · exact h1 x hx
      · exact word_lt_trans (h1 x hx) (habove y hy)

/-- DictInsert grows the dictionary by the one slot NeedsSlot asks for (R121). -/
theorem length_dictInsert (v : Word) (d : List Word) :
    (dictInsert v d).length = d.length + if needsSlot v d then 1 else 0 := by
  by_cases h : v ∈ d
  · simp [dictInsert_of_mem h, needsSlot, h]
  · rw [dictInsert_of_not_mem h]
    simp only [needsSlot, h, not_false_eq_true, decide_true, if_true, List.length_append, List.length_cons,
      List.length_take, List.length_drop]
    omega

/-- An insertion that has room keeps a dictionary well formed (R120, R123). -/
theorem dictInsert_wf {cap : Nat} {d : List Word} (hd : dictWf cap d) {v : Word}
    (hroom : ¬ (v ∉ d ∧ d.length = cap)) : dictWf cap (dictInsert v d) := by
  refine ⟨dictInsert_ascending hd.1 v, ?_⟩
  rw [length_dictInsert]
  have := hd.2
  by_cases h : v ∈ d
  · simpa [needsSlot, h] using this
  · have : d.length ≠ cap := fun h' => hroom ⟨h, h'⟩
    simp [needsSlot, h]; omega

/-! ## DictRank -/

/-- The rank of an entry of an ascending list is its index (R120). -/
theorem getElem?_countBelow {d : List Word} (hd : d.Pairwise (· < ·)) {v : Word} (h : v ∈ d) :
    d[countBelow v d]? = some v := by
  induction d with
  | nil => simp at h
  | cons y d ih =>
    obtain ⟨hy, hd⟩ := List.pairwise_cons.mp hd
    rw [countBelow_cons]
    rcases List.mem_cons.mp h with rfl | h
    · have : countBelow v d = 0 :=
        countBelow_eq_zero fun x hx hxv => word_lt_irrefl _ (word_lt_trans (hy x hx) hxv)
      simp [this]
    · rw [if_pos (hy v h), List.getElem?_cons_succ]
      exact ih hd h

theorem ascending_nodup {d : List Word} (hd : d.Pairwise (· < ·)) : d.Nodup :=
  List.Pairwise.imp (S := (· ≠ ·)) (fun h h' => word_lt_irrefl _ (h' ▸ h)) hd

/-- The rank of an entry of an ascending list is the source's `index_of` (R122). -/
theorem countBelow_eq_idxOf {d : List Word} (hd : d.Pairwise (· < ·)) {v : Word} (h : v ∈ d) :
    countBelow v d = d.idxOf v := by
  have h1 := getElem?_countBelow hd h
  obtain ⟨hlt, h1⟩ := List.getElem?_eq_some_iff.mp h1
  rw [← (ascending_nodup hd).idxOf_getElem (countBelow v d) hlt, h1]

/-- What DictRank can do (R122). -/
theorem dictRank_eq (v : Word) (d : List Word) :
    (v ∈ d ∧ dictRank v d = some (countBelow v d)) ∨ (v ∉ d ∧ dictRank v d = none) := by
  by_cases h : v ∈ d
  · exact .inl ⟨h, if_pos h⟩
  · exact .inr ⟨h, if_neg h⟩

theorem dictRank_of_mem {v : Word} {d : List Word} (h : v ∈ d) : dictRank v d = some (countBelow v d) := if_pos h

theorem dictRank_of_not_mem {v : Word} {d : List Word} (h : v ∉ d) : dictRank v d = none := if_neg h

/-- A rank is below the size of the dictionary (R120). -/
theorem countBelow_lt {d : List Word} (hd : d.Pairwise (· < ·)) {v : Word} (h : v ∈ d) :
    countBelow v d < d.length :=
  (List.getElem?_eq_some_iff.mp (getElem?_countBelow hd h)).1

/-! ## Over the state -/

@[simp] theorem insertValue_dict_same (f : DictField) (v : Word) (s : State) :
    (insertValue f v s).dict f = dictInsert v (s.dict f) := setDict_dict_same _ _ _

theorem insertValue_dict_other {f g : DictField} (h : g ≠ f) (v : Word) (s : State) :
    (insertValue f v s).dict g = s.dict g := setDict_dict_other h _ _

/-- An insertion writes the dictionaries and nothing else. -/
theorem insertValue_frame (f : DictField) (v : Word) (s : State) :
    insertValue f v s =
      { s with dictDelta := (insertValue f v s).dictDelta, dictLength := (insertValue f v s).dictLength,
               dictPitch := (insertValue f v s).dictPitch } := setDict_frame _ _ _

theorem lacksRoom_iff (s : State) (f : DictField) (v : Word) :
    lacksRoom s f v = true ↔ v ∉ s.dict f ∧ (s.dict f).length = s.cfg.dictCap := by
  simp [lacksRoom, needsSlot]

end Sys2Proof.Machine
end

