-- ==== Sys2Proof/Laws/Memory.lean ====
section
/-! SUPPORT. BUF as memory: a write keeps the canonical form, a read after a write to the same address gives the byte
written, and a write leaves every other address alone. -/

namespace Sys2Proof.Machine

@[simp] theorem memRead_nil (j : Nat) : memRead [] j = 0x00#8 := rfl

theorem memRead_cons (a : Nat) (b : Byte) (m : Mem) (j : Nat) :
    memRead ((a, b) :: m) j = if a = j then b else memRead m j := rfl

/-- An address that no cell lists reads as the unlisted byte. -/
theorem memRead_unlisted {m : Mem} {j : Nat} (h : ∀ c ∈ m, c.1 ≠ j) : memRead m j = 0x00#8 := by
  induction m with
  | nil => rfl
  | cons c m ih =>
    obtain ⟨a, b⟩ := c
    rw [memRead_cons, if_neg (h (a, b) (by simp)), ih fun c hc => h c (by simp [hc])]

theorem mem_consCell {a : Nat} {b : Byte} {m : Mem} {c : Host.Cell} (h : c ∈ consCell a b m) :
    c = (a, b) ∧ b ≠ unlistedByte ∨ c ∈ m := by
  unfold consCell at h
  split at h
  · exact .inr h
  · rename_i hb
    rcases List.mem_cons.mp h with rfl | h
    · exact .inl ⟨rfl, hb⟩
    · exact .inr h

theorem memRead_consCell_same {a : Nat} {b : Byte} {m : Mem} (h : ∀ c ∈ m, c.1 ≠ a) :
    memRead (consCell a b m) a = b := by
  unfold consCell
  split
  · rename_i hb
    rw [memRead_unlisted h, hb, unlistedByte]
  · rw [memRead_cons, if_pos rfl]

theorem memRead_consCell_other {a j : Nat} (h : j ≠ a) (b : Byte) (m : Mem) :
    memRead (consCell a b m) j = memRead m j := by
  unfold consCell
  split
  · rfl
  · rw [memRead_cons, if_neg (Ne.symm h)]

/-- The cells after a write: those that were there at other addresses, and the one written where it holds something. -/
theorem mem_memWrite {m : Mem} {j : Nat} {v : Byte} {c : Host.Cell} (h : c ∈ memWrite m j v) :
    c = (j, v) ∧ v ≠ unlistedByte ∨ c ∈ m := by
  induction m with
  | nil => exact (mem_consCell h).imp_right id
  | cons d m ih =>
    obtain ⟨a, b⟩ := d
    simp only [memWrite] at h
    split at h
    · exact mem_consCell h
    · split at h
      · exact (mem_consCell h).imp_right fun h => List.mem_cons_of_mem _ h
      · rcases List.mem_cons.mp h with rfl | h
        · exact .inr (by simp)
        · exact (ih h).imp_right fun h => List.mem_cons_of_mem _ h

theorem consCell_pairwise {a : Nat} {b : Byte} {m : Mem} (hm : m.Pairwise fun c d => c.1 < d.1)
    (ha : ∀ c ∈ m, a < c.1) : (consCell a b m).Pairwise fun c d => c.1 < d.1 := by
  unfold consCell
  split
  · exact hm
  · exact List.pairwise_cons.mpr ⟨ha, hm⟩

/-- A write keeps the canonical form. -/
theorem memWrite_wf {m : Mem} (hm : memWf m) (j : Nat) (v : Byte) : memWf (memWrite m j v) := by
  refine ⟨?_, fun c hc => ?_⟩
  · have hp := hm.1
    clear hm
    induction m with
    | nil => exact consCell_pairwise .nil (by simp)
    | cons d m ih =>
      obtain ⟨a, b⟩ := d
      obtain ⟨ha, hp⟩ := List.pairwise_cons.mp hp
      simp only [memWrite]
      split
      · rename_i hj
        refine consCell_pairwise (List.pairwise_cons.mpr ⟨ha, hp⟩) fun c hc => ?_
        rcases List.mem_cons.mp hc with rfl | hc
        · exact hj
        · exact Nat.lt_trans hj (ha c hc)
      · split
        · rename_i hj
          exact consCell_pairwise hp fun c hc => hj ▸ ha c hc
        · rename_i h1 h2
          refine List.pairwise_cons.mpr ⟨fun c hc => ?_, ih hp⟩
          rcases mem_memWrite hc with ⟨rfl, -⟩ | hc
          · exact Nat.lt_of_le_of_ne (Nat.not_lt.mp h1) (Ne.symm h2)
          · exact ha c hc
  · rcases mem_memWrite hc with ⟨rfl, hv⟩ | hc
    · exact hv
    · exact hm.2 c hc

/-- A read of the address written gives the byte written. -/
theorem memRead_memWrite_same {m : Mem} (hm : memWf m) (j : Nat) (v : Byte) : memRead (memWrite m j v) j = v := by
  have hp := hm.1
  clear hm
  induction m with
  | nil => exact memRead_consCell_same (by simp)
  | cons d m ih =>
    obtain ⟨a, b⟩ := d
    obtain ⟨ha, hp⟩ := List.pairwise_cons.mp hp
    simp only [memWrite]
    split
    · rename_i hj
      refine memRead_consCell_same fun c hc => ?_
      rcases List.mem_cons.mp hc with rfl | hc
      · exact Nat.ne_of_gt hj
      · exact Nat.ne_of_gt (Nat.lt_trans hj (ha c hc))
    · split
      · rename_i hj
        exact memRead_consCell_same fun c hc => Nat.ne_of_gt (hj ▸ ha c hc)
      · rename_i h1 h2
        rw [memRead_cons, if_neg (Ne.symm h2), ih hp]

/-- A read of any other address gives what it gave before. -/
theorem memRead_memWrite_other (m : Mem) {j k : Nat} (h : k ≠ j) (v : Byte) :
    memRead (memWrite m j v) k = memRead m k := by
  induction m with
  | nil => exact memRead_consCell_other h v []
  | cons d m ih =>
    obtain ⟨a, b⟩ := d
    simp only [memWrite]
    split
    · exact memRead_consCell_other h v _
    · split
      · rename_i hj
        rw [memRead_consCell_other h, memRead_cons, if_neg (hj ▸ Ne.symm h)]
      · rw [memRead_cons, memRead_cons, ih]

/-- The memory RST leaves is in canonical form. -/
theorem memWf_reset : memWf State.reset.mem := ⟨.nil, by simp [State.reset, State.resetWith]⟩

/-- `Append0` keeps the canonical form. -/
theorem append0_memWf {s : State} (h : memWf s.mem) : memWf (append0 s).mem := memWrite_wf h _ _

/-- Clearing the stream gives a memory in canonical form. -/
theorem clearStream_memWf (s : State) : memWf (clearStream s).mem := ⟨.nil, by simp⟩

end Sys2Proof.Machine
end

