-- ==== Sys2Proof/Laws/Stream.lean ====
section
/-! SUPPORT. What WriteBit, WriteBits and a field write do, said once in terms of TB and the stream's bits (R50, R100 to
R103). -/

namespace Sys2Proof.Machine

/-- A state whose stream ends at TB: BUF in canonical form, no byte listed at or beyond LEN, and no bit set at or beyond TB
(R24, R27). -/
structure StreamEnds (s : State) : Prop where
  wf : memWf s.mem
  listed : ∀ c ∈ s.mem, c.1 < s.len
  zeros : ∀ k, s.tb ≤ k → streamBit s k = false

theorem byte_ext {x y : Byte} (h : ∀ j, j < 8 → x.getLsbD j = y.getLsbD j) : x = y :=
  BitVec.eq_of_getLsbD_eq h

theorem streamBit_byte (s : State) (a j : Nat) (h : j < 8) : streamBit s (8 * a + j) = (memRead s.mem a).getLsbD j := by
  have h1 : (8 * a + j) / 8 = a := by omega
  have h2 : (8 * a + j) % 8 = j := by omega
  simp only [streamBit, h1, h2]

/-- Two states with the same stream bits in a byte have the same byte. -/
theorem memRead_eq_of_streamBit {s t : State} {a : Nat}
    (h : ∀ k, k / 8 = a → streamBit t k = streamBit s k) : memRead t.mem a = memRead s.mem a := by
  refine byte_ext fun j hj => ?_
  rw [← streamBit_byte t a j hj, ← streamBit_byte s a j hj]
  exact h _ (by omega)

theorem bufferWf_iff_streamEnds (s : State) : bufferWf s ↔ StreamEnds s ∧ s.len ≤ s.cfg.bufCap := by
  constructor
  · rintro ⟨hm, hl, hc, ht⟩
    refine ⟨⟨hm, hl, fun k hk => ?_⟩, hc⟩
    by_cases hb : k / 8 = s.byteIndex
    · have := congrArg (fun x : Byte => x.getLsbD (k % 8 - s.bitOffset.toNat)) ht
      simp only [BitVec.getLsbD_ushiftRight, BitVec.getLsbD_zero] at this
      have h1 : s.bitOffset.toNat + (k % 8 - s.bitOffset.toNat) = k % 8 := by
        simp only [State.tb] at hk; omega
      rw [h1] at this
      simp only [streamBit, hb]; exact this
    · have hgt : s.byteIndex < k / 8 := by
        have := tb_div s
        have : s.tb / 8 ≤ k / 8 := Nat.div_le_div_right hk
        omega
      rw [streamBit, memRead_unlisted fun c hc => ?_]
      · simp
      · have := hl c hc
        simp only [State.len] at this; omega
  · rintro ⟨⟨hm, hl, hz⟩, hc⟩
    refine ⟨hm, hl, hc, byte_ext fun j hj => ?_⟩
    simp only [BitVec.getLsbD_ushiftRight, BitVec.getLsbD_zero]
    by_cases h8 : s.bitOffset.toNat + j < 8
    · rw [← streamBit_byte s _ _ h8]
      exact hz _ (by simp only [State.tb]; omega)
    · exact BitVec.getLsbD_of_ge _ _ (by omega)

/-! ## WriteBit -/

theorem getLsbD_orBit (byte : Byte) (b : Bool) (off : BitVec 3) (j : Nat) (hj : j < 8) :
    (orBit byte b off).getLsbD j = (byte.getLsbD j || (b && decide (j = off.toNat))) := by
  have hoff : off.toNat < 8 := off.isLt
  simp only [orBit, BitVec.getLsbD_or, BitVec.getLsbD_shiftLeft, BitVec.getLsbD_setWidth, BitVec.getLsbD_ofBool]
  by_cases h : j = off.toNat
  · subst h; cases b <;> simp [hoff]
  · by_cases h' : j < off.toNat
    · simp [h, h']
    · have : j - off.toNat ≠ 0 := by omega
      simp [h, this]

/-- WriteBit writes the stream's memory and cursor and nothing else. -/
theorem writeBit_frame (b : Bool) (s : State) :
    writeBit b s = { s with mem := (writeBit b s).mem, byteIndex := (writeBit b s).byteIndex,
                            bitOffset := (writeBit b s).bitOffset } := by
  unfold writeBit; dsimp only; split <;> rfl

theorem writeBit_tb (b : Bool) (s : State) : (writeBit b s).tb = s.tb + 1 := by
  unfold writeBit
  dsimp only
  split
  · rename_i h; simp [State.tb, h]; omega
  · rename_i h
    have h7 : s.bitOffset.toNat ≠ 7 := fun h' => h (BitVec.eq_of_toNat_eq h')
    have := bitOffset_lt s
    simp only [State.tb, BitVec.toNat_add]
    have : (s.bitOffset.toNat + (1#3).toNat) % 2 ^ 3 = s.bitOffset.toNat + 1 := by
      simp; omega
    omega

/-- The memory after WriteBit: the current byte with the bit ORed in, and a zero byte appended when it filled. -/
theorem writeBit_mem (b : Bool) (s : State) :
    (writeBit b s).mem =
      let m := memWrite s.mem s.byteIndex (orBit (memRead s.mem s.byteIndex) b s.bitOffset)
      if s.bitOffset = 7#3 then memWrite m (s.byteIndex + 1) 0x00#8 else m := by
  unfold writeBit; dsimp only; split <;> rfl

/-- What WriteBit can do (R100): the stream bit at TB is b, every other stream bit is as before. -/
theorem writeBit_streamBit {s : State} (h : StreamEnds s) (b : Bool) (k : Nat) :
    streamBit (writeBit b s) k = if k = s.tb then b else streamBit s k := by
  have hoff := bitOffset_lt s
  have hk8 : k % 8 < 8 := Nat.mod_lt _ (by decide)
  -- the current byte, after the OR
  have hcur : ∀ m : Mem, memRead m s.byteIndex = orBit (memRead s.mem s.byteIndex) b s.bitOffset →
      k / 8 = s.byteIndex →
      (memRead m (k / 8)).getLsbD (k % 8) = if k = s.tb then b else streamBit s k := by
    intro m hm hk
    rw [hk, hm, getLsbD_orBit _ _ _ _ hk8]
    by_cases hkt : k = s.tb
    · have := h.zeros k (Nat.le_of_eq hkt.symm)
      rw [streamBit, hk] at this
      have hj : k % 8 = s.bitOffset.toNat := by rw [hkt, tb_mod]
      rw [this, if_pos hkt]; simp [hj]
    · have hj : k % 8 ≠ s.bitOffset.toNat := by
        intro hj; apply hkt; simp only [State.tb]; omega
      rw [if_neg hkt, streamBit, hk]; simp [hj]
  have hne : k / 8 ≠ s.byteIndex → k ≠ s.tb := fun hk hkt => hk (by rw [hkt, tb_div])
  rw [streamBit, writeBit_mem]
  dsimp only
  by_cases hk : k / 8 = s.byteIndex
  · split
    · refine hcur _ ?_ hk
      rw [memRead_memWrite_other _ (by omega), memRead_memWrite_same h.wf]
    · exact hcur _ (memRead_memWrite_same h.wf _ _) hk
  · rw [if_neg (hne hk)]
    split
    · by_cases hk1 : k / 8 = s.byteIndex + 1
      · rw [hk1, memRead_memWrite_same (memWrite_wf h.wf _ _), h.zeros k (by simp only [State.tb]; omega)]
        simp
      · rw [memRead_memWrite_other _ hk1, memRead_memWrite_other _ hk, streamBit]
    · rw [memRead_memWrite_other _ hk, streamBit]

theorem writeBit_len_le (b : Bool) (s : State) : s.len ≤ (writeBit b s).len := by
  have h1 := tb_div (writeBit b s)
  have h2 := tb_div s
  rw [writeBit_tb] at h1
  simp only [State.len]; omega

theorem writeBit_streamEnds {s : State} (h : StreamEnds s) (b : Bool) : StreamEnds (writeBit b s) where
  wf := by
    rw [writeBit_mem]; dsimp only; split
    · exact memWrite_wf (memWrite_wf h.wf _ _) _ _
    · exact memWrite_wf h.wf _ _
  listed := by
    intro c hc
    have hle := writeBit_len_le b s
    rw [writeBit_mem] at hc; dsimp only at hc
    have hold : ∀ c, c ∈ memWrite s.mem s.byteIndex (orBit (memRead s.mem s.byteIndex) b s.bitOffset) → c.1 < s.len := by
      intro c hc
      rcases mem_memWrite hc with ⟨rfl, -⟩ | hc
      · simp [State.len]
      · exact h.listed c hc
    split at hc
    · rcases mem_memWrite hc with ⟨rfl, hv⟩ | hc
      · exact absurd rfl hv
      · exact Nat.lt_of_lt_of_le (hold c hc) hle
    · exact Nat.lt_of_lt_of_le (hold c hc) hle
  zeros := by
    intro k hk
    rw [writeBit_tb] at hk
    rw [writeBit_streamBit h, if_neg (by omega), h.zeros k (by omega)]

/-! ## WriteBits -/

/-- WriteBits writes the stream's memory and cursor and nothing else. -/
theorem writeBitsFrom_frame (v : Nat) (i n : Nat) (s : State) :
    writeBitsFrom v i n s =
      { s with mem := (writeBitsFrom v i n s).mem, byteIndex := (writeBitsFrom v i n s).byteIndex,
               bitOffset := (writeBitsFrom v i n s).bitOffset } := by
  induction n generalizing i s with
  | zero => rfl
  | succ n ih => rw [writeBitsFrom, ih, writeBit_frame]

theorem writeBitsFrom_tb (v : Nat) (i n : Nat) (s : State) : (writeBitsFrom v i n s).tb = s.tb + n := by
  induction n generalizing i s with
  | zero => rfl
  | succ n ih => rw [writeBitsFrom, ih, writeBit_tb]; omega

theorem writeBitsFrom_streamEnds {s : State} (h : StreamEnds s) (v i n : Nat) :
    StreamEnds (writeBitsFrom v i n s) := by
  induction n generalizing i s with
  | zero => exact h
  | succ n ih => exact ih (writeBit_streamEnds h _) _

/-- What WriteBits can do (R54, R101): stream bits TB to TB+n-1 are the value's bits in ascending order, every other one is
as before. -/
theorem writeBitsFrom_streamBit {s : State} (h : StreamEnds s) (v i n k : Nat) :
    streamBit (writeBitsFrom v i n s) k =
      if s.tb ≤ k ∧ k < s.tb + n then v.testBit (i + (k - s.tb)) else streamBit s k := by
  induction n generalizing i s with
  | zero => rw [if_neg (by omega)]; rfl
  | succ n ih =>
    rw [writeBitsFrom, ih (writeBit_streamEnds h _), writeBit_tb, writeBit_streamBit h]
    by_cases hk : k = s.tb
    · subst hk; simp
    · by_cases hr : s.tb + 1 ≤ k ∧ k < s.tb + 1 + n
      · rw [if_pos hr, if_pos (by omega)]
        congr 1; omega
      · rw [if_neg hr, if_neg hk, if_neg (by omega)]

theorem writeBits_frame (v w : Nat) (s : State) :
    writeBits v w s =
      { s with mem := (writeBits v w s).mem, byteIndex := (writeBits v w s).byteIndex,
               bitOffset := (writeBits v w s).bitOffset } := writeBitsFrom_frame v 0 w s

@[simp] theorem writeBits_tb (v w : Nat) (s : State) : (writeBits v w s).tb = s.tb + w := writeBitsFrom_tb v 0 w s

theorem writeBits_streamEnds {s : State} (h : StreamEnds s) (v w : Nat) : StreamEnds (writeBits v w s) :=
  writeBitsFrom_streamEnds h v 0 w

theorem writeBits_streamBit {s : State} (h : StreamEnds s) (v w k : Nat) :
    streamBit (writeBits v w s) k =
      if s.tb ≤ k ∧ k < s.tb + w then v.testBit (k - s.tb) else streamBit s k := by
  rw [writeBits, writeBitsFrom_streamBit h, Nat.zero_add]

/-- WriteBits depends on the low w bits of its value only (R110). -/
theorem writeBitsFrom_congr {v v' i n : Nat} (h : ∀ j, i ≤ j → j < i + n → v.testBit j = v'.testBit j) (s : State) :
    writeBitsFrom v i n s = writeBitsFrom v' i n s := by
  induction n generalizing i s with
  | zero => rfl
  | succ n ih =>
    rw [writeBitsFrom, writeBitsFrom, h i (Nat.le_refl _) (by omega)]
    exact ih (fun j h1 h2 => h j (by omega) (by omega)) _

/-- Two WriteBits calls, one after the other. -/
theorem writeBitsFrom_append (v i m n : Nat) (s : State) :
    writeBitsFrom v i (m + n) s = writeBitsFrom v (i + m) n (writeBitsFrom v i m s) := by
  induction m generalizing i s with
  | zero => simp [writeBitsFrom]
  | succ m ih =>
    rw [show m + 1 + n = m + n + 1 by omega, writeBitsFrom, ih, writeBitsFrom]
    congr 1; omega

/-- The bytes a write of n bits may change (R52): the current one and those after it up to the one the cursor ends in. -/
theorem memRead_outside {s t : State} {n a : Nat}
    (hbits : ∀ k, ¬ (s.tb ≤ k ∧ k < s.tb + n) → streamBit t k = streamBit s k)
    (ha : ¬ (s.byteIndex ≤ a ∧ a ≤ s.byteIndex + (s.bitOffset.toNat + n) / 8)) :
    memRead t.mem a = memRead s.mem a := by
  refine memRead_eq_of_streamBit fun k hk => hbits k fun hin => ha ?_
  simp only [State.tb] at hin
  omega

/-- LEN after n more bits (R102): what BitsFit compares with BUF_CAP. -/
theorem len_after {s t : State} {n : Nat} (h : t.tb = s.tb + n) : t.len = s.len + (s.bitOffset.toNat + n) / 8 := by
  have h1 := tb_div t
  have h2 := bitOffset_lt s
  rw [h] at h1
  simp only [State.len, State.tb] at *
  omega

theorem bitsFit_iff (s : State) (n : Nat) :
    bitsFit s n = true ↔ s.len + (s.bitOffset.toNat + n) / 8 ≤ s.cfg.bufCap := by
  simp [bitsFit]

/-! ## DictField writes -/

theorem truncates_iff (v w : Nat) : truncates v w = true ↔ 2 ^ w ≤ v := by
  simp only [truncates, Nat.shiftRight_eq_div_pow, bne_iff_ne, ne_eq, Nat.div_eq_zero_iff]
  have : 2 ^ w ≠ 0 := by positivity
  omega

theorem streamBit_noteTruncation (v w : Nat) (s : State) (k : Nat) :
    streamBit (noteTruncation v w s) k = streamBit s k := rfl

theorem tb_noteTruncation (v w : Nat) (s : State) : (noteTruncation v w s).tb = s.tb := rfl

/-- A field write changes the stream and OVF and nothing else. -/
theorem writeField_frame (v w : Nat) (s : State) :
    writeField v w s =
      { s with mem := (writeField v w s).mem, byteIndex := (writeField v w s).byteIndex,
               bitOffset := (writeField v w s).bitOffset, ovf := (writeField v w s).ovf } := by
  rw [writeField, noteTruncation, writeBits_frame]

@[simp] theorem writeField_tb (v w : Nat) (s : State) : (writeField v w s).tb = s.tb + w := by
  rw [writeField, tb_noteTruncation, writeBits_tb]

theorem writeField_streamEnds {s : State} (h : StreamEnds s) (v w : Nat) : StreamEnds (writeField v w s) :=
  have h := writeBits_streamEnds h v w
  ⟨h.wf, h.listed, h.zeros⟩

theorem writeField_streamBit {s : State} (h : StreamEnds s) (v w k : Nat) :
    streamBit (writeField v w s) k =
      if s.tb ≤ k ∧ k < s.tb + w then v.testBit (k - s.tb) else streamBit s k := by
  rw [writeField, streamBit_noteTruncation, writeBits_streamBit h]

theorem writeField_ovf (v w : Nat) (s : State) : (writeField v w s).ovf = (s.ovf || truncates v w) := by
  rw [writeField, noteTruncation_ovf, writeBits_frame]

/-! ## Several field writes -/

/-- The number of bits a list of field writes writes. -/
def totalWidth : List (Nat × Nat) → Nat
  | [] => 0
  | (_, w) :: rest => w + totalWidth rest

/-- The bits a list of field writes writes, in order. -/
def allFieldBits (fields : List (Nat × Nat)) : List Bool := fields.flatMap fun vw => fieldBits vw.1 vw.2

theorem length_fieldBits (v w : Nat) : (fieldBits v w).length = w := by simp [fieldBits]

theorem length_allFieldBits (fields : List (Nat × Nat)) : (allFieldBits fields).length = totalWidth fields := by
  induction fields with
  | nil => rfl
  | cons vw rest ih =>
    obtain ⟨v, w⟩ := vw
    simp only [allFieldBits, List.flatMap_cons, List.length_append, length_fieldBits, totalWidth] at *
    rw [ih]

/-- DictField writes change the stream and OVF and nothing else. -/
theorem writeFields_frame (fields : List (Nat × Nat)) (s : State) :
    writeFields fields s =
      { s with mem := (writeFields fields s).mem, byteIndex := (writeFields fields s).byteIndex,
               bitOffset := (writeFields fields s).bitOffset, ovf := (writeFields fields s).ovf } := by
  induction fields generalizing s with
  | nil => rfl
  | cons vw rest ih => rw [writeFields, ih, writeField_frame]

@[simp] theorem writeFields_tb (fields : List (Nat × Nat)) (s : State) :
    (writeFields fields s).tb = s.tb + totalWidth fields := by
  induction fields generalizing s with
  | nil => rfl
  | cons vw rest ih => rw [writeFields, ih, writeField_tb, totalWidth]; omega

theorem writeFields_streamEnds {s : State} (h : StreamEnds s) (fields : List (Nat × Nat)) :
    StreamEnds (writeFields fields s) := by
  induction fields generalizing s with
  | nil => exact h
  | cons vw rest ih => exact ih (writeField_streamEnds h _ _)

/-- What a list of field writes can do to the stream: it appends the fields' bits and leaves every other bit as it was. -/
theorem writeFields_streamBit {s : State} (h : StreamEnds s) (fields : List (Nat × Nat)) (k : Nat) :
    streamBit (writeFields fields s) k =
      if s.tb ≤ k then ((allFieldBits fields)[k - s.tb]?).getD false else streamBit s k := by
  induction fields generalizing s with
  | nil =>
    simp only [writeFields, allFieldBits, List.flatMap_nil, List.getElem?_nil, Option.getD_none]
    split
    · rename_i hk; exact h.zeros k hk
    · rfl
  | cons vw rest ih =>
    obtain ⟨v, w⟩ := vw
    rw [writeFields, ih (writeField_streamEnds h v w), writeField_tb, writeField_streamBit h]
    simp only [allFieldBits, List.flatMap_cons]
    by_cases h1 : s.tb + w ≤ k
    · rw [if_pos h1, if_pos (by omega), List.getElem?_append_right (by rw [length_fieldBits]; omega), length_fieldBits]
      congr 2; omega
    · rw [if_neg h1]
      by_cases h2 : s.tb ≤ k
      · rw [if_pos ⟨h2, by omega⟩, if_pos h2, List.getElem?_append_left (by rw [length_fieldBits]; omega)]
        simp only [fieldBits, List.getElem?_map]
        rw [List.getElem?_range (by omega)]
        rfl
      · rw [if_neg (by omega), if_neg h2]

theorem writeFields_ovf (fields : List (Nat × Nat)) (s : State) :
    (writeFields fields s).ovf = (s.ovf || fields.any fun vw => truncates vw.1 vw.2) := by
  induction fields generalizing s with
  | nil => simp [writeFields]
  | cons vw rest ih => rw [writeFields, ih, writeField_ovf, List.any_cons, Bool.or_assoc]

end Sys2Proof.Machine
end

