-- ==== Sys2Proof/Laws/Control.lean ====
section
/-! SUPPORT. What the shared operations around a command can do: the faulted gate (R184), fault entry (R183), field selects
(R75), delta derivation (R142), the channel's lookups and insertions (R146, R147). -/

namespace Sys2Proof.Machine

/-! ## Faults -/

@[simp] theorem unlessFaulted_of_faulted {s : State} (h : s.faulted = true)
    (run : Host.Outcome State Fault Refusal) : unlessFaulted s run = .next s := by
  simp [unlessFaulted, h]

@[simp] theorem unlessFaulted_of_running {s : State} (h : s.faulted = false)
    (run : Host.Outcome State Fault Refusal) : unlessFaulted s run = run := by
  simp [unlessFaulted, h]

/-- What the faulted gate can do: discard, or run. -/
theorem unlessFaulted_cases (s : State) (run : Host.Outcome State Fault Refusal) :
    (s.faulted = true ∧ unlessFaulted s run = .next s) ∨ (s.faulted = false ∧ unlessFaulted s run = run) := by
  cases h : s.faulted
  · exact .inr ⟨rfl, unlessFaulted_of_running h run⟩
  · exact .inl ⟨rfl, unlessFaulted_of_faulted h run⟩

theorem raise_eq (c : FaultCause) (s : State) :
    raise c s = .next { s with faulted := true, faultCode := faultCodeOf c } := rfl

/-- No cause has the code of NONE or the reserved code 7 (R180). -/
theorem faultCodeOf_legal (c : FaultCause) : faultCodeOf c ≠ 0#3 ∧ faultCodeOf c ≠ 7#3 := by
  cases c <;> decide

/-! ## DictField selects -/

@[simp] theorem fieldOfSel_selOfField (f : DictField) : fieldOfSel (selOfField f) = some f := by
  cases f <;> rfl

theorem fieldOfSel_three : fieldOfSel 3#2 = none := rfl

/-- A SEL value selects a field exactly when it is legal (R75, R77). -/
theorem fieldOfSel_cases (sel : BitVec 2) :
    (∃ f, sel = selOfField f ∧ fieldOfSel sel = some f ∧ selLegal sel = true) ∨
      (sel = 3#2 ∧ fieldOfSel sel = none ∧ selLegal sel = false) := by
  have h : ∀ x : BitVec 2, x = 0#2 ∨ x = 1#2 ∨ x = 2#2 ∨ x = 3#2 := by decide
  rcases h sel with rfl | rfl | rfl | rfl
  · exact .inl ⟨.delta, rfl, rfl, rfl⟩
  · exact .inl ⟨.length, rfl, rfl, rfl⟩
  · exact .inl ⟨.pitch, rfl, rfl, rfl⟩
  · exact .inr ⟨rfl, rfl, rfl⟩

@[simp] theorem withField_selOfField (f : DictField) (s : State) (run : DictField → Host.Outcome State Fault Refusal) :
    withField (selOfField f) s run = run f := by
  simp [withField]

/-- What a field select can do: run on its field, or be the illegal SEL = 3. -/
theorem withField_cases (sel : BitVec 2) (s : State) (run : DictField → Host.Outcome State Fault Refusal) :
    (∃ f, sel = selOfField f ∧ withField sel s run = run f) ∨
      (sel = 3#2 ∧ withField sel s run = runIllegal s) := by
  rcases fieldOfSel_cases sel with ⟨f, rfl, -, -⟩ | ⟨rfl, -, -⟩
  · exact .inl ⟨f, rfl, withField_selOfField f s run⟩
  · exact .inr ⟨rfl, rfl⟩

/-! ## The channel table -/

/-- Every value of CHAN: its fields and its bits per note (R140, R141). -/
theorem chanFields_cases (ch : BitVec 2) :
    (ch = 0#2 ∧ chanFields ch = [(.delta, 3)] ∧ bitsPerNote ch = 3) ∨
    (ch = 1#2 ∧ chanFields ch = [(.delta, 4), (.length, 3), (.pitch, 5)] ∧ bitsPerNote ch = 12) ∨
    (ch = 2#2 ∧ chanFields ch = [(.delta, 3), (.length, 2), (.pitch, 5)] ∧ bitsPerNote ch = 10) ∨
    (ch = 3#2 ∧ chanFields ch = [] ∧ bitsPerNote ch = 0) := by
  revert ch; decide

theorem usesField_iff (ch : BitVec 2) (f : DictField) : usesField ch f = true ↔ ∃ w, (f, w) ∈ chanFields ch := by
  simp only [usesField, List.any_eq_true, beq_iff_eq]
  exact ⟨fun ⟨⟨g, w⟩, h, e⟩ => ⟨w, e ▸ h⟩, fun ⟨w, h⟩ => ⟨(f, w), h, rfl⟩⟩

/-- What NextDelta can do (R142): ORDER below PREV_ONSET, else the difference, which does not wrap. -/
theorem nextDelta_cases (onset : Word) (s : State) :
    (onset < s.prevOnset ∧ nextDelta onset s = none) ∨
      (s.prevOnset ≤ onset ∧ nextDelta onset s = some (onset - s.prevOnset)) := by
  by_cases h : onset < s.prevOnset
  · exact .inl ⟨h, if_pos h⟩
  · exact .inr ⟨BitVec.not_lt.mp h, if_neg h⟩

theorem nextDelta_toNat {onset : Word} {s : State} (h : s.prevOnset ≤ onset) :
    (onset - s.prevOnset).toNat = onset.toNat - s.prevOnset.toNat := by
  rw [BitVec.toNat_sub_of_le h]

/-! ## SCAN's checks and insertions -/

theorem anyLacksRoom_iff (fields : List (DictField × Nat)) (val : DictField → Word) (s : State) :
    anyLacksRoom fields val s = true ↔
      ∃ f w, (f, w) ∈ fields ∧ val f ∉ s.dict f ∧ (s.dict f).length = s.cfg.dictCap := by
  simp only [anyLacksRoom, List.any_eq_true, Prod.exists, lacksRoom_iff]

/-- SCAN's insertions write the dictionaries and nothing else. -/
theorem insertFields_frame (fields : List (DictField × Nat)) (val : DictField → Word) (s : State) :
    insertFields fields val s =
      { s with dictDelta := (insertFields fields val s).dictDelta,
               dictLength := (insertFields fields val s).dictLength,
               dictPitch := (insertFields fields val s).dictPitch } := by
  induction fields generalizing s with
  | nil => rfl
  | cons fw rest ih => rw [insertFields, ih, insertValue_frame]

/-- What SCAN's insertions can do (R146): each used field's dictionary gets that field's value, the others stay. -/
theorem insertFields_dict (fields : List (DictField × Nat)) (hnd : (fields.map (·.1)).Nodup) (val : DictField → Word)
    (s : State) (f : DictField) :
    (insertFields fields val s).dict f =
      if f ∈ fields.map (·.1) then dictInsert (val f) (s.dict f) else s.dict f := by
  induction fields generalizing s with
  | nil => rfl
  | cons fw rest ih =>
    obtain ⟨g, w⟩ := fw
    rw [List.map_cons, List.nodup_cons] at hnd
    rw [insertFields, ih hnd.2]
    by_cases hfg : f = g
    · subst hfg
      rw [if_neg hnd.1, if_pos (by simp), insertValue_dict_same]
    · rw [insertValue_dict_other hfg]
      have : f ∈ ((g, w) :: rest).map (·.1) ↔ f ∈ rest.map (·.1) := by simp only [List.map_cons, List.mem_cons, hfg, false_or]
      simp only [this]

theorem chanFields_nodup (ch : BitVec 2) : ((chanFields ch).map (·.1)).Nodup := by
  revert ch; decide

/-! ## EMIT's lookups -/

/-- What EMIT's lookups can do (R147): the rank of every field's value, or a miss of one of them. -/
theorem lookupRanks_cases (fields : List (DictField × Nat)) (val : DictField → Word) (s : State) :
    ((∀ f w, (f, w) ∈ fields → val f ∈ s.dict f) ∧
      lookupRanks fields val s = some (fields.map fun fw => (countBelow (val fw.1) (s.dict fw.1), fw.2))) ∨
    ((∃ f w, (f, w) ∈ fields ∧ val f ∉ s.dict f) ∧ lookupRanks fields val s = none) := by
  induction fields with
  | nil => exact .inl ⟨by simp, rfl⟩
  | cons fw rest ih =>
    obtain ⟨g, w⟩ := fw
    rcases dictRank_eq (val g) (s.dict g) with ⟨hg, hr⟩ | ⟨hg, hr⟩
    · rcases ih with ⟨hall, hl⟩ | ⟨⟨f, v, hf, hn⟩, hl⟩
      · refine .inl ⟨fun f v hf => ?_, by simp [lookupRanks, hr, hl]⟩
        rcases List.mem_cons.mp hf with h | hf
        · cases h; exact hg
        · exact hall f v hf
      · exact .inr ⟨⟨f, v, List.mem_cons_of_mem _ hf, hn⟩, by simp [lookupRanks, hr, hl]⟩
    · exact .inr ⟨⟨g, w, by simp, hg⟩, by simp [lookupRanks, hr]⟩

/-- The bits a note's ranks take are the channel's bits per note (R141). -/
theorem totalWidth_map (fields : List (DictField × Nat)) (r : DictField → Nat) :
    totalWidth (fields.map fun fw => (r fw.1, fw.2)) = (fields.map (·.2)).sum := by
  induction fields with
  | nil => rfl
  | cons fw rest ih => simp [totalWidth, ih]

/-- Reading RESP's registers and BUF: a byte that exists, or none (R52, R59). -/
theorem readByte_cases (s : State) (j : Nat) :
    (j < s.len ∧ readByte s j = some (memRead s.mem j)) ∨ (s.len ≤ j ∧ readByte s j = none) := by
  by_cases h : j < s.len
  · exact .inl ⟨h, if_pos h⟩
  · exact .inr ⟨Nat.not_lt.mp h, if_neg h⟩

end Sys2Proof.Machine
end

