-- ==== Sys2Proof/Laws/Encoding.lean ====
section
/-! SUPPORT. The fields of a word read back from the word they make (R70). -/

namespace Sys2Proof

section
variable (op : BitVec 4) (sel : BitVec 2) (w : BitVec 6) (c b a : Word)

theorem opOf_packFields : opOf (packFields op sel w c b a) = op := by
  refine BitVec.eq_of_getLsbD_eq fun i hi => ?_
  simp only [opOf, packFields, BitVec.getLsbD_extractLsb', BitVec.getLsbD_append]
  interval_cases i <;> simp

theorem selOf_packFields : selOf (packFields op sel w c b a) = sel := by
  refine BitVec.eq_of_getLsbD_eq fun i hi => ?_
  simp only [selOf, packFields, BitVec.getLsbD_extractLsb', BitVec.getLsbD_append]
  interval_cases i <;> simp

theorem wOf_packFields : wOf (packFields op sel w c b a) = w := by
  refine BitVec.eq_of_getLsbD_eq fun i hi => ?_
  simp only [wOf, packFields, BitVec.getLsbD_extractLsb', BitVec.getLsbD_append]
  interval_cases i <;> simp

theorem cOf_packFields : cOf (packFields op sel w c b a) = c := by
  refine BitVec.eq_of_getLsbD_eq fun i hi => ?_
  simp only [cOf, packFields, BitVec.getLsbD_extractLsb', BitVec.getLsbD_append]
  interval_cases i <;> simp

theorem bOf_packFields : bOf (packFields op sel w c b a) = b := by
  refine BitVec.eq_of_getLsbD_eq fun i hi => ?_
  simp only [bOf, packFields, BitVec.getLsbD_extractLsb', BitVec.getLsbD_append]
  interval_cases i <;> simp

theorem aOf_packFields : aOf (packFields op sel w c b a) = a := by
  refine BitVec.eq_of_getLsbD_eq fun i hi => ?_
  simp only [aOf, packFields, BitVec.getLsbD_extractLsb', BitVec.getLsbD_append]
  interval_cases i <;> simp

theorem rsv_packFields : (packFields op sel w c b a).extractLsb' 104 20 = 0#20 := by
  refine BitVec.eq_of_getLsbD_eq fun i hi => ?_
  simp only [packFields, BitVec.getLsbD_extractLsb', BitVec.getLsbD_append]
  interval_cases i <;> simp

end

/-- The OP value a word carries selects the row whose OP value it is (R73). -/
theorem opcodeOf_opcodeBits (op : Opcode) : opcodeOf (opcodeBits op) = op := by
  cases op <;> rfl

theorem opcodeBits_opcodeOf (op : BitVec 4) : opcodeBits (opcodeOf op) = op := by
  revert op; decide

/-- The value of bytes is below 256 to the number of bytes (R71). -/
theorem bytesValue_lt (bs : List Byte) : bytesValue bs < 256 ^ bs.length := by
  induction bs with
  | nil => simp [bytesValue]
  | cons x bs ih =>
    have := x.isLt
    simp only [bytesValue, List.length_cons, pow_succ]
    omega

/-- Byte i of a value of bytes is the i-th byte (R71). -/
theorem bytesValue_byte (bs : List Byte) (i : Nat) (h : i < bs.length) :
    bytesValue bs / 256 ^ i % 256 = (bs[i]).toNat := by
  induction bs generalizing i with
  | nil => simp at h
  | cons x bs ih =>
    have hx := x.isLt
    cases i with
    | zero => simp only [bytesValue, pow_zero, List.getElem_cons_zero]; omega
    | succ i =>
      rw [bytesValue, pow_succ, Nat.mul_comm (256 ^ i) 256, ← Nat.div_div_eq_div_mul,
        show (x.toNat + 256 * bytesValue bs) / 256 = bytesValue bs by omega]
      exact ih i (Nat.lt_of_succ_lt_succ h)

end Sys2Proof
end

