-- ==== Sys2Proof/Laws/Exec.lean ====
section
/-! SUPPORT. The inversion of `exec` and of `step`: everything a command, and a step, can do, said once. -/

namespace Sys2Proof.Machine

/-- Everything a command can do to a state. -/
inductive ExecEffect (i : Instr) (s : State) : State → Prop
  /-- Discarded while FAULTED (R184). -/
  | discarded (hf : s.faulted = true) (hi : runsWhileFaulted i = false ∨ i.wf = false) : ExecEffect i s s
  /-- SEL = 3 where it is illegal (R77). -/
  | illegal (hf : s.faulted = false) (hw : i.wf = false) : ExecEffect i s (latchFault .illegal s)
  /-- A fault of its own (R181). -/
  | raised (c : FaultCause) (hf : s.faulted = false) (hc : c ∈ mayRaise i) : ExecEffect i s (latchFault c s)
  | nop (hi : i = .nop) : ExecEffect i s s
  /-- A read command (R33). -/
  | read (r : Resp) (hi : writesResp i = true) (hr : r.v = false → r.data = 0#32) : ExecEffect i s { s with resp := r }
  | clrs (hf : s.faulted = false) (hi : i = .clrs) : ExecEffect i s (clearStream s)
  | wbit (b : BitVec 1) (hf : s.faulted = false) (hi : i = .wbit b) (hfit : bitsFit s 1 = true) :
      ExecEffect i s (writeBit (b == 1#1) s)
  | wbits (v : Word) (w : BitVec 6) (hf : s.faulted = false) (hi : i = .wbits v w)
      (hfit : bitsFit s w.toNat = true) : ExecEffect i s (writeField v.toNat w.toNat s)
  | setch (c : BitVec 2) (hf : s.faulted = false) (hi : i = .setch c) (hc : c ≠ 3#2) :
      ExecEffect i s { s with chan := c }
  | dins (f : DictField) (v : Word) (hf : s.faulted = false) (hi : i = .dins (selOfField f) v)
      (hroom : lacksRoom s f v = false) : ExecEffect i s (insertValue f v s)
  | dclr (hf : s.faulted = false) (hi : i = .dclr) : ExecEffect i s (clearDicts s)
  | scan (o d p : Word) (hf : s.faulted = false) (hi : i = .scan o d p) (hch : s.chan ≠ 3#2)
      (ho : s.prevOnset ≤ o)
      (hroom : anyLacksRoom (chanFields s.chan) (byField (o - s.prevOnset) d p) s = false) :
      ExecEffect i s { insertFields (chanFields s.chan) (byField (o - s.prevOnset) d p) s with prevOnset := o }
  | rewind (hf : s.faulted = false) (hi : i = .rewind) : ExecEffect i s { s with prevOnset := 0#32 }
  | emit (o d p : Word) (hf : s.faulted = false) (hi : i = .emit o d p) (hch : s.chan ≠ 3#2) (ho : s.prevOnset ≤ o)
      (hmem : ∀ f w, (f, w) ∈ chanFields s.chan → byField (o - s.prevOnset) d p f ∈ s.dict f)
      (hfit : bitsFit s (bitsPerNote s.chan) = true) :
      ExecEffect i s
        { writeFields ((chanFields s.chan).map fun fw =>
            (countBelow (byField (o - s.prevOnset) d p fw.1) (s.dict fw.1), fw.2)) s with prevOnset := o }
  | emitr (a b c : Word) (hf : s.faulted = false) (hi : i = .emitr a b c) (hch : s.chan ≠ 3#2)
      (hfit : bitsFit s (bitsPerNote s.chan) = true) :
      ExecEffect i s (writeFields (givenRanks (chanFields s.chan) (byField a b c)) s)

/-- An outcome that is a next state with an effect of the command. -/
abbrev EndsIn (i : Instr) (s : State) (r : Host.Outcome State Fault Refusal) : Prop :=
  ∃ t, r = .next t ∧ ExecEffect i s t

theorem endsIn_unlessFaulted {i : Instr} {s : State} {r : Host.Outcome State Fault Refusal}
    (hi : runsWhileFaulted i = false ∨ i.wf = false) (h : s.faulted = false → EndsIn i s r) :
    EndsIn i s (unlessFaulted s r) := by
  rcases unlessFaulted_cases s r with ⟨hf, hr⟩ | ⟨hf, hr⟩
  · exact ⟨s, hr, .discarded hf hi⟩
  · rw [hr]; exact h hf

theorem endsIn_raise {i : Instr} {s : State} {c : FaultCause} (hf : s.faulted = false) (hc : c ∈ mayRaise i) :
    EndsIn i s (raise c s) := ⟨_, rfl, .raised c hf hc⟩

theorem endsIn_runIllegal {i : Instr} {s : State} (hw : i.wf = false) : EndsIn i s (runIllegal s) :=
  endsIn_unlessFaulted (.inr hw) fun hf => ⟨_, rfl, .illegal hf hw⟩

/-- A field-select command does what it does on its field, or is the illegal SEL = 3. -/
theorem endsIn_withField {i : Instr} {s : State} {sel : BitVec 2} {run : DictField → Host.Outcome State Fault Refusal}
    (hw : selLegal sel = false → i.wf = false) (h : ∀ f, sel = selOfField f → EndsIn i s (run f)) :
    EndsIn i s (withField sel s run) := by
  rcases withField_cases sel s run with ⟨f, hs, hr⟩ | ⟨rfl, hr⟩
  · rw [hr]; exact h f hs
  · rw [hr]; exact endsIn_runIllegal (hw rfl)

theorem endsIn_respond {i : Instr} {s : State} (hi : writesResp i = true) (data : Word) :
    EndsIn i s (.next (respond data s)) := ⟨_, rfl, .read { v := true, data := data } hi (by simp)⟩

theorem endsIn_respondNothing {i : Instr} {s : State} (hi : writesResp i = true) :
    EndsIn i s (.next (respondNothing s)) := ⟨_, rfl, .read { v := false, data := 0#32 } hi (by simp)⟩

/-- The inversion of `exec`: every command, in every state, ends in a next state, by one of the effects above. -/
theorem exec_effect (i : Instr) (s : State) : EndsIn i s (exec i s) := by
  cases i
  case nop => exact ⟨s, rfl, .nop rfl⟩
  case clrs => exact endsIn_unlessFaulted (.inl rfl) fun hf => ⟨_, rfl, .clrs hf rfl⟩
  case wbit bit =>
    refine endsIn_unlessFaulted (.inl rfl) fun hf => ?_
    split
    · exact ⟨_, rfl, .wbit bit hf rfl ‹_›⟩
    · exact endsIn_raise hf (by simp [mayRaise])
  case wbits value width =>
    refine endsIn_unlessFaulted (.inl rfl) fun hf => ?_
    split
    · exact ⟨_, rfl, .wbits value width hf rfl ‹_›⟩
    · exact endsIn_raise hf (by simp [mayRaise])
  case setch channel =>
    simp only [exec, execSetch]
    split
    · rename_i h; subst h; exact endsIn_runIllegal rfl
    · exact endsIn_unlessFaulted (.inl rfl) fun hf => ⟨_, rfl, .setch channel hf rfl ‹_›⟩
  case dins field value =>
    refine endsIn_withField id fun f hs => endsIn_unlessFaulted (.inl rfl) fun hf => ?_
    split
    · exact endsIn_raise hf (by simp [mayRaise])
    · rename_i h
      exact ⟨_, rfl, .dins f value hf (by rw [hs]) (by simpa using h)⟩
  case dclr => exact endsIn_unlessFaulted (.inl rfl) fun hf => ⟨_, rfl, .dclr hf rfl⟩
  case drd field index =>
    refine endsIn_withField id fun f _ => ?_
    split
    · exact endsIn_respond rfl _
    · exact endsIn_respondNothing rfl
  case dsz field => exact endsIn_withField id fun f _ => endsIn_respond rfl _
  case rank field value =>
    refine endsIn_withField id fun f _ => ?_
    split
    · exact endsIn_respond rfl _
    · exact endsIn_respondNothing rfl
  case scan onset duration pitch =>
    refine endsIn_unlessFaulted (.inl rfl) fun hf => ?_
    split
    · exact endsIn_raise hf (by simp [mayRaise])
    · rename_i hch
      rcases nextDelta_cases onset s with ⟨-, hn⟩ | ⟨ho, hn⟩ <;> simp only [hn]
      · exact endsIn_raise hf (by simp [mayRaise])
      · split
        · exact endsIn_raise hf (by simp [mayRaise])
        · rename_i h
          exact ⟨_, rfl, .scan onset duration pitch hf rfl hch ho (by simpa using h)⟩
  case rewind => exact endsIn_unlessFaulted (.inl rfl) fun hf => ⟨_, rfl, .rewind hf rfl⟩
  case emit onset duration pitch =>
    refine endsIn_unlessFaulted (.inl rfl) fun hf => ?_
    split
    · exact endsIn_raise hf (by simp [mayRaise])
    · rename_i hch
      rcases nextDelta_cases onset s with ⟨-, hn⟩ | ⟨ho, hn⟩ <;> simp only [hn]
      · exact endsIn_raise hf (by simp [mayRaise])
      · rcases lookupRanks_cases (chanFields s.chan) (byField (onset - s.prevOnset) duration pitch) s with
          ⟨hall, hl⟩ | ⟨-, hl⟩ <;> simp only [hl]
        · split
          · exact ⟨_, rfl, .emit onset duration pitch hf rfl hch ho hall ‹_›⟩
          · exact endsIn_raise hf (by simp [mayRaise])
        · exact endsIn_raise hf (by simp [mayRaise])
  case emitr rdelta rlength rpitch =>
    refine endsIn_unlessFaulted (.inl rfl) fun hf => ?_
    split
    · exact endsIn_raise hf (by simp [mayRaise])
    · split
      · exact ⟨_, rfl, .emitr rdelta rlength rpitch hf rfl ‹_› ‹_›⟩
      · exact endsIn_raise hf (by simp [mayRaise])
  case rdb address =>
    simp only [exec, execRdb]
    split
    · exact endsIn_respond rfl _
    · exact endsIn_respondNothing rfl
  case rdst selector => exact endsIn_respond rfl _

/-- The inversion of `exec` from its answer. -/
theorem exec_effect_of_next {i : Instr} {s t : State} (h : exec i s = .next t) : ExecEffect i s t := by
  obtain ⟨u, hu, he⟩ := exec_effect i s
  rw [h] at hu; cases hu; exact he

/-- The inversion of `step`: idle, a refusal before the first RST, a decoded command, an illegal word, or RST. -/
theorem step_cases (s : State) :
    (s.input = [] ∧ step s = .next s) ∨
    (∃ word rest, s.input = .cmd word :: rest ∧ s.rstDone = false ∧ step s = .refused .commandBeforeReset) ∨
    (∃ word rest i, s.input = .cmd word :: rest ∧ s.rstDone = true ∧ decode word = .ok i ∧
      step s = exec i { s with input := rest }) ∨
    (∃ word rest e, s.input = .cmd word :: rest ∧ s.rstDone = true ∧ decode word = .error e ∧
      step s = runIllegal { s with input := rest }) ∨
    (∃ rest, s.input = .rst :: rest ∧ step s = .next (State.resetWith s.cfg rest)) := by
  unfold step advance
  split
  · exact .inl ⟨‹_›, rfl⟩
  · rename_i move rest hin
    cases move with
    | cmd word =>
      simp only [takeMove, runCommand]
      cases hr : s.rstDone
      · exact .inr (.inl ⟨word, rest, hin, rfl, by simp⟩)
      · cases hd : decode word with
        | ok i => exact .inr (.inr (.inl ⟨word, rest, i, hin, rfl, hd, by simp⟩))
        | error e => exact .inr (.inr (.inr (.inl ⟨word, rest, e, hin, rfl, hd, by simp⟩)))
    | rst => exact .inr (.inr (.inr (.inr ⟨rest, hin, rfl⟩)))

end Sys2Proof.Machine
end

