-- ==== Sys2Proof/Laws/PerInstr.lean ====
section
/-! SUPPORT. The per-instruction family `EncodesInItsRow`: the word of a command lies in the command's own row of R74. -/

namespace Sys2Proof.Laws.EncodesInItsRow

open Sys2Proof

/-- The word of a command has the OP value of its row, matches the row, and has every reserved bit zero (R73, R74, R76). -/
def Statement (i : Instr) : Prop :=
  opOf (encode i) = opcodeBits (opcodeOfInstr i) ∧ rowMatches (rowOf (opcodeOfInstr i)) (encode i) = true ∧
    (encode i).extractLsb' 104 20 = 0#20

theorem nop : Statement .nop :=
  ⟨opOf_packFields .., by
    simp only [rowMatches, beq_iff_eq]
    refine BitVec.eq_of_getLsbD_eq fun k hk => ?_
    simp only [opcodeOfInstr, rowOf, groups, encode, packFields, BitVec.getLsbD_and, BitVec.getLsbD_append]
    interval_cases k <;> simp, rsv_packFields ..⟩

theorem clrs : Statement .clrs :=
  ⟨opOf_packFields .., by
    simp only [rowMatches, beq_iff_eq]
    refine BitVec.eq_of_getLsbD_eq fun k hk => ?_
    simp only [opcodeOfInstr, rowOf, groups, encode, packFields, BitVec.getLsbD_and, BitVec.getLsbD_append]
    interval_cases k <;> simp, rsv_packFields ..⟩

theorem wbit (bit : BitVec 1) : Statement (.wbit bit) :=
  ⟨opOf_packFields .., by
    simp only [rowMatches, beq_iff_eq]
    refine BitVec.eq_of_getLsbD_eq fun k hk => ?_
    simp only [opcodeOfInstr, rowOf, groups, encode, packFields, BitVec.getLsbD_and, BitVec.getLsbD_append]
    interval_cases k <;> simp, rsv_packFields ..⟩

theorem wbits (value : Word) (width : BitVec 6) : Statement (.wbits value width) :=
  ⟨opOf_packFields .., by
    simp only [rowMatches, beq_iff_eq]
    refine BitVec.eq_of_getLsbD_eq fun k hk => ?_
    simp only [opcodeOfInstr, rowOf, groups, encode, packFields, BitVec.getLsbD_and, BitVec.getLsbD_append]
    interval_cases k <;> simp, rsv_packFields ..⟩

theorem setch (channel : BitVec 2) : Statement (.setch channel) :=
  ⟨opOf_packFields .., by
    simp only [rowMatches, beq_iff_eq]
    refine BitVec.eq_of_getLsbD_eq fun k hk => ?_
    simp only [opcodeOfInstr, rowOf, groups, encode, packFields, BitVec.getLsbD_and, BitVec.getLsbD_append]
    interval_cases k <;> simp, rsv_packFields ..⟩

theorem dins (field : BitVec 2) (value : Word) : Statement (.dins field value) :=
  ⟨opOf_packFields .., by
    simp only [rowMatches, beq_iff_eq]
    refine BitVec.eq_of_getLsbD_eq fun k hk => ?_
    simp only [opcodeOfInstr, rowOf, groups, encode, packFields, BitVec.getLsbD_and, BitVec.getLsbD_append]
    interval_cases k <;> simp, rsv_packFields ..⟩

theorem dclr : Statement .dclr :=
  ⟨opOf_packFields .., by
    simp only [rowMatches, beq_iff_eq]
    refine BitVec.eq_of_getLsbD_eq fun k hk => ?_
    simp only [opcodeOfInstr, rowOf, groups, encode, packFields, BitVec.getLsbD_and, BitVec.getLsbD_append]
    interval_cases k <;> simp, rsv_packFields ..⟩

theorem drd (field : BitVec 2) (index : Word) : Statement (.drd field index) :=
  ⟨opOf_packFields .., by
    simp only [rowMatches, beq_iff_eq]
    refine BitVec.eq_of_getLsbD_eq fun k hk => ?_
    simp only [opcodeOfInstr, rowOf, groups, encode, packFields, BitVec.getLsbD_and, BitVec.getLsbD_append]
    interval_cases k <;> simp, rsv_packFields ..⟩

theorem dsz (field : BitVec 2) : Statement (.dsz field) :=
  ⟨opOf_packFields .., by
    simp only [rowMatches, beq_iff_eq]
    refine BitVec.eq_of_getLsbD_eq fun k hk => ?_
    simp only [opcodeOfInstr, rowOf, groups, encode, packFields, BitVec.getLsbD_and, BitVec.getLsbD_append]
    interval_cases k <;> simp, rsv_packFields ..⟩

theorem rank (field : BitVec 2) (value : Word) : Statement (.rank field value) :=
  ⟨opOf_packFields .., by
    simp only [rowMatches, beq_iff_eq]
    refine BitVec.eq_of_getLsbD_eq fun k hk => ?_
    simp only [opcodeOfInstr, rowOf, groups, encode, packFields, BitVec.getLsbD_and, BitVec.getLsbD_append]
    interval_cases k <;> simp, rsv_packFields ..⟩

theorem scan (onset duration pitch : Word) : Statement (.scan onset duration pitch) :=
  ⟨opOf_packFields .., by
    simp only [rowMatches, beq_iff_eq]
    refine BitVec.eq_of_getLsbD_eq fun k hk => ?_
    simp only [opcodeOfInstr, rowOf, groups, encode, packFields, BitVec.getLsbD_and, BitVec.getLsbD_append]
    interval_cases k <;> simp, rsv_packFields ..⟩

theorem rewind : Statement .rewind :=
  ⟨opOf_packFields .., by
    simp only [rowMatches, beq_iff_eq]
    refine BitVec.eq_of_getLsbD_eq fun k hk => ?_
    simp only [opcodeOfInstr, rowOf, groups, encode, packFields, BitVec.getLsbD_and, BitVec.getLsbD_append]
    interval_cases k <;> simp, rsv_packFields ..⟩

theorem emit (onset duration pitch : Word) : Statement (.emit onset duration pitch) :=
  ⟨opOf_packFields .., by
    simp only [rowMatches, beq_iff_eq]
    refine BitVec.eq_of_getLsbD_eq fun k hk => ?_
    simp only [opcodeOfInstr, rowOf, groups, encode, packFields, BitVec.getLsbD_and, BitVec.getLsbD_append]
    interval_cases k <;> simp, rsv_packFields ..⟩

theorem emitr (rdelta rlength rpitch : Word) : Statement (.emitr rdelta rlength rpitch) :=
  ⟨opOf_packFields .., by
    simp only [rowMatches, beq_iff_eq]
    refine BitVec.eq_of_getLsbD_eq fun k hk => ?_
    simp only [opcodeOfInstr, rowOf, groups, encode, packFields, BitVec.getLsbD_and, BitVec.getLsbD_append]
    interval_cases k <;> simp, rsv_packFields ..⟩

theorem rdb (address : Word) : Statement (.rdb address) :=
  ⟨opOf_packFields .., by
    simp only [rowMatches, beq_iff_eq]
    refine BitVec.eq_of_getLsbD_eq fun k hk => ?_
    simp only [opcodeOfInstr, rowOf, groups, encode, packFields, BitVec.getLsbD_and, BitVec.getLsbD_append]
    interval_cases k <;> simp, rsv_packFields ..⟩

theorem rdst (selector : BitVec 2) : Statement (.rdst selector) :=
  ⟨opOf_packFields .., by
    simp only [rowMatches, beq_iff_eq]
    refine BitVec.eq_of_getLsbD_eq fun k hk => ?_
    simp only [opcodeOfInstr, rowOf, groups, encode, packFields, BitVec.getLsbD_and, BitVec.getLsbD_append]
    interval_cases k <;> simp, rsv_packFields ..⟩

end Sys2Proof.Laws.EncodesInItsRow
end

