-- ==== Sys2Proof/Laws/System.lean ====
section
/-! SUPPORT. What one step of one instance does to each instance of a system (R63, R190), and `core.run` step by step. -/

namespace Sys2Proof.Machine

@[simp] theorem instanceStep_next (s : State) : instanceStep (.next s) = step s := rfl

/-- An instance that is not in a state takes no step. -/
theorem instanceStep_of_stopped {o : Host.Outcome State Fault Refusal} (h : ∀ s, o ≠ .next s) : instanceStep o = o := by
  cases o with
  | next s => exact absurd rfl (h s)
  | fault r => rfl
  | refused r => rfl

/-- The instance that steps. -/
@[simp] theorem systemStep_self {n : Nat} (k : Fin n) (sys : System n) : (systemStep k sys)[k] = instanceStep sys[k] := by
  simp [systemStep]

/-- Every other instance. -/
theorem systemStep_other {n : Nat} {j k : Fin n} (h : j ≠ k) (sys : System n) : (systemStep k sys)[j] = sys[j] := by
  simp only [systemStep, Fin.getElem_fin]
  rw [Vector.getElem_set_ne]
  exact fun e => h (Fin.ext e).symm

/-! ## One instance alone -/

/-- A run of one more step than `n`, for any machine: the step, then `n` steps from where it leads, if it leads to a
state. -/
theorem run_succ_cases (M : Host.Core) (n : Nat) (s : M.State) :
    (∃ t, M.step s = .next t ∧ M.run (n + 1) s = M.run n t) ∨
      ((∀ t, M.step s ≠ .next t) ∧ M.run (n + 1) s = M.step s) := by
  rw [Host.Core.run]
  cases M.step s with
  | next t => exact .inl ⟨t, rfl, rfl⟩
  | fault r => exact .inr ⟨(fun _ e => nomatch e), rfl⟩
  | refused r => exact .inr ⟨(fun _ e => nomatch e), rfl⟩

theorem core_run_zero (s : State) : core.run 0 s = .next s := rfl

/-- The same of one instance. -/
theorem core_run_succ (n : Nat) (s : State) :
    (∃ t, step s = .next t ∧ core.run (n + 1) s = core.run n t) ∨
      ((∀ t, step s ≠ .next t) ∧ core.run (n + 1) s = step s) := run_succ_cases core n s

end Sys2Proof.Machine
end

