-- ==== Sys2Proof/Tests/Slice0.lean ====
section
/-! SUPPORT. Tests: expected values are the spec's own (95_test_vectors.md and the examples of the rules), and for every
obligation with hypotheses a state and operands that meet them together. -/

namespace Sys2Proof.Machine.Tests

/-! ## WellFormed refuses each ill-formed term (R77 (b)) -/

theorem test_wf_refuses_setch_three : Instr.wf (.setch 3#2) = false := by decide
theorem test_wf_refuses_dins_three : Instr.wf (.dins 3#2 5#32) = false := by decide
theorem test_wf_refuses_drd_three : Instr.wf (.drd 3#2 5#32) = false := by decide
theorem test_wf_refuses_dsz_three : Instr.wf (.dsz 3#2) = false := by decide
theorem test_wf_refuses_rank_three : Instr.wf (.rank 3#2 5#32) = false := by decide
theorem test_wf_takes_rdst_three : Instr.wf (.rdst 3#2) = true := by decide

/-! ## Decoding words written out from R70 and R74 -/

/-- R170. -/
theorem test_decode_nop : decode (groups 0x00000000 0x00000000 0x00000000 0x00000000) = .ok .nop := by decide
/-- R106. -/
theorem test_decode_clrs : decode (groups 0x10000000 0x00000000 0x00000000 0x00000000) = .ok .clrs := by decide
/-- V-S2. -/
theorem test_decode_wbit : decode (groups 0x20000000 0x00000000 0x00000000 0x00000001) = .ok (.wbit 1#1) := by decide
/-- P3 step 6. -/
theorem test_decode_wbits :
    decode (groups 0x30000006 0x00000000 0x00000000 0xffffffff) = .ok (.wbits 0xffffffff#32 6#6) := by decide
/-- R144. -/
theorem test_decode_setch : decode (groups 0x40000040 0x00000000 0x00000000 0x00000000) = .ok (.setch 1#2) := by decide
/-- P5 step 4. -/
theorem test_decode_dins :
    decode (groups 0x50000080 0x00000000 0x00000000 0x000001b8) = .ok (.dins 2#2 440#32) := by decide
/-- R124. -/
theorem test_decode_dclr : decode (groups 0x60000000 0x00000000 0x00000000 0x00000000) = .ok .dclr := by decide
/-- V-S6. -/
theorem test_decode_drd : decode (groups 0x70000040 0x00000000 0x00000000 0x00000001) = .ok (.drd 1#2 1#32) := by decide
/-- V-S6. -/
theorem test_decode_dsz : decode (groups 0x80000080 0x00000000 0x00000000 0x00000000) = .ok (.dsz 2#2) := by decide
/-- V-S6. -/
theorem test_decode_rank :
    decode (groups 0x90000080 0x00000000 0x00000000 0x000001ee) = .ok (.rank 2#2 494#32) := by decide
/-- P2 step 3. -/
theorem test_decode_scan :
    decode (groups 0xa0000000 0x000001ee 0x00000005 0x0000000a) = .ok (.scan 10#32 5#32 494#32) := by decide
/-- R145. -/
theorem test_decode_rewind : decode (groups 0xb0000000 0x00000000 0x00000000 0x00000000) = .ok .rewind := by decide
/-- P2 step 8. -/
theorem test_decode_emit :
    decode (groups 0xc0000000 0x000001b8 0x00000008 0x00000014) = .ok (.emit 20#32 8#32 440#32) := by decide
/-- R148: C is the pitch rank, B the length rank, A the delta rank. -/
theorem test_decode_emitr :
    decode (groups 0xd0000000 0x00000003 0x00000002 0x00000001) = .ok (.emitr 1#32 2#32 3#32) := by decide
/-- P1 step 14. -/
theorem test_decode_rdb : decode (groups 0xe0000000 0x00000000 0x00000000 0x00000001) = .ok (.rdb 1#32) := by decide
/-- P1 step 12. -/
theorem test_decode_rdst : decode (groups 0xf00000c0 0x00000000 0x00000000 0x00000000) = .ok (.rdst 3#2) := by decide

/-- V-RD-8, V-BW-13, V-BW-14, and a reserved bit (R76). -/
theorem test_decode_reserved_bits :
    decode (groups 0x00000000 0x00000000 0x00000000 0x00000001) = .error (.reservedBits "NOP") ∧
    decode (groups 0x20000000 0x00000000 0x00000000 0x00000002) = .error (.reservedBits "WBIT") ∧
    decode (groups 0x30000003 0x00000000 0x00000001 0x00000005) = .error (.reservedBits "WBITS") ∧
    decode (groups 0x40000140 0x00000000 0x00000000 0x00000000) = .error (.reservedBits "SETCH") := by decide

/-- V-CH-8, V-DI-8. -/
theorem test_decode_sel_three :
    decode (groups 0x400000c0 0x00000000 0x00000000 0x00000000) = .error (.selThree "SETCH") ∧
    decode (groups 0x500000c0 0x00000000 0x00000000 0x00000005) = .error (.selThree "DINS") ∧
    decode (groups 0x700000c0 0x00000000 0x00000000 0x00000000) = .error (.selThree "DRD") ∧
    decode (groups 0x800000c0 0x00000000 0x00000000 0x00000000) = .error (.selThree "DSZ") ∧
    decode (groups 0x900000c0 0x00000000 0x00000000 0x00000000) = .error (.selThree "RANK") := by decide

/-- 95_test_vectors.md, byte form of P2 step 2. -/
theorem test_byte_form :
    bytesOfWord (groups 0xa0000000 0x000001b8 0x00000005 0x00000000) =
      [0x00, 0x00, 0x00, 0x00, 0x05, 0x00, 0x00, 0x00, 0xb8, 0x01, 0x00, 0x00, 0x00, 0x00, 0x00, 0xa0] ∧
    decodeBytes [0x00, 0x00, 0x00, 0x00, 0x05, 0x00, 0x00, 0x00, 0xb8, 0x01, 0x00, 0x00, 0x00, 0x00, 0x00, 0xa0] =
      .ok (.scan 0#32 5#32 440#32) := by decide

theorem test_decode_table_word :
    decodeTableWord 128 0x300000030000000000000000000000ff = some (.wbits 255#32 3#6) ∧
    decodeTableWord 128 0x400000c0000000000000000000000000 = none := by decide

/-- P4 step 6. -/
theorem test_encode_emit :
    encode (.emit 65#32 13#32 294#32) = groups 0xc0000000 0x00000126 0x0000000d 0x00000041 := by decide

/-! ## One step of each command, on small states -/

/-- Reset, for BUF_CAP = 4 and DICT_CAP = 3. -/
def small : State := State.resetWith { bufCap := 4, dictCap := 3 } []

/-- `s` with the given bytes in BUF and the given BIT_OFFSET. -/
def withBuf (bytes : List Byte) (offset : BitVec 3) (s : State) : State :=
  { s with mem := bytes.zipIdx.filterMap (fun b => if b.1 = 0x00#8 then none else some (b.2, b.1)),
           byteIndex := bytes.length - 1, bitOffset := offset }

/-- `s` with the given dictionaries. -/
def withDicts (delta length pitch : List Word) (s : State) : State :=
  { s with dictDelta := delta, dictLength := length, dictPitch := pitch }

/-- The next state of an outcome. -/
def after (o : Host.Outcome State Fault Refusal) : Option State :=
  match o with
  | .next t => some t
  | .fault _ => none
  | .refused _ => none

/-- BUF, BIT_OFFSET and OVF after an outcome. -/
def stream (o : Host.Outcome State Fault Refusal) : Option (List Byte × BitVec 3 × Bool) :=
  (after o).map fun t => (output t, t.bitOffset, t.ovf)

/-- RESP after an outcome. -/
def response (o : Host.Outcome State Fault Refusal) : Option (Bool × Word) :=
  (after o).map fun t => (t.resp.v, t.resp.data)

/-- R170: NOP while FAULTED. -/
theorem test_nop : after (exec .nop { small with faulted := true, faultCode := 2#3 }) =
    some { small with faulted := true, faultCode := 2#3 } := by decide

/-- R106, the example. -/
theorem test_clrs : stream (exec .clrs { withBuf [0xff, 0x00] 0 small with ovf := true }) =
    some ([0x00], 0, false) := by decide

/-- V-S2: the eighth bit appends a byte. -/
theorem test_wbit_fills_a_byte : stream (exec (.wbit 1#1) (withBuf [0x7f] 7 small)) =
    some ([0xff, 0x00], 0, false) := by decide

/-- V-BW-11. -/
theorem test_wbit_full : after (exec (.wbit 1#1) { withBuf [0x7f] 7 small with cfg.bufCap := 1 }) =
    some { withBuf [0x7f] 7 small with cfg.bufCap := 1, faulted := true, faultCode := 6#3 } := by decide

/-- V-BW-8: a field across a byte boundary. -/
theorem test_wbits_straddles : stream (exec (.wbits 0x3f 6#6) (withBuf [0x1f] 5 small)) =
    some ([0xff, 0x07], 3, false) := by decide

/-- V-BW-7: a width above 32. -/
theorem test_wbits_wide : stream (exec (.wbits 0xffffffff 40#6) { small with cfg.bufCap := 6 }) =
    some ([0xff, 0xff, 0xff, 0xff, 0x00, 0x00], 0, false) := by decide

/-- R144. -/
theorem test_setch : (after (exec (.setch 1#2) small)).map (·.chan) = some 1#2 := by decide

/-- V-DI-1. -/
theorem test_dins_sorts : (after (exec (.dins 2#2 262) (withDicts [] [] [294] small))).map (·.dictPitch) =
    some [262, 294] := by decide

/-- V-DI-7: a duplicate at capacity is fine, a new value faults. -/
theorem test_dins_full :
    after (exec (.dins 0#2 2) (withDicts [1, 2, 5] [] [] small)) = some (withDicts [1, 2, 5] [] [] small) ∧
    after (exec (.dins 0#2 3) (withDicts [1, 2, 5] [] [] small)) =
      some { withDicts [1, 2, 5] [] [] small with faulted := true, faultCode := 5#3 } := by decide

/-- V-DI-9. -/
theorem test_dclr : after (exec .dclr (withDicts [0, 0xffffffff] [4] [] small)) = some small := by decide

/-- R125, the example. -/
theorem test_drd :
    response (exec (.drd 0#2 2) (withDicts [0, 5, 7] [] [] small)) = some (true, 7) ∧
    response (exec (.drd 0#2 3) (withDicts [0, 5, 7] [] [] small)) = some (false, 0) := by decide

/-- R126, the example. -/
theorem test_dsz : response (exec (.dsz 1#2) (withDicts [] [7, 13] [] small)) = some (true, 2) := by decide

/-- R127, the example. -/
theorem test_rank :
    response (exec (.rank 0#2 7) (withDicts [0, 5, 7] [] [] small)) = some (true, 2) ∧
    response (exec (.rank 0#2 6) (withDicts [0, 5, 7] [] [] small)) = some (false, 0) := by decide

/-- V-S4, the last row. -/
theorem test_scan : after (exec (.scan 12 9 440) { withDicts [0, 5] [] [] small with chan := 0#2, prevOnset := 5 }) =
    some { withDicts [0, 5, 7] [] [] small with chan := 0#2, prevOnset := 12 } := by decide

/-- V-CH-15: DICT_FULL, precise. -/
theorem test_scan_full :
    after (exec (.scan 9 2 1) { withDicts [0] [1] [1] small with cfg.dictCap := 1, chan := 2#2, prevOnset := 9 }) =
      some { withDicts [0] [1] [1] small with
        cfg.dictCap := 1, chan := 2#2, prevOnset := 9, faulted := true, faultCode := 5#3 } := by decide

/-- R145. -/
theorem test_rewind : after (exec .rewind { small with prevOnset := 12 }) = some small := by decide

/-- P4 step 6. -/
theorem test_emit :
    stream (exec (.emit 65 13 294)
      { withBuf [0x00, 0x00] 4 (withDicts [0, 65] [7, 13] [262, 294] small) with chan := 1#2 }) =
      some ([0x00, 0x10, 0x09, 0x00], 0, false) := by decide

/-- P5 step 6: MISS, precise. -/
theorem test_emit_miss :
    after (exec (.emit 3 5 440) { withBuf [0x00, 0x00] 2 (withDicts [0] [5] [440] small) with chan := 2#2 }) =
      some { withBuf [0x00, 0x00] 2 (withDicts [0] [5] [440] small) with
        chan := 2#2, faulted := true, faultCode := 4#3 } := by decide

/-- V-CH-5. -/
theorem test_emitr : stream (exec (.emitr 1 1 1) { small with chan := 2#2 }) = some ([0x29, 0x00], 2, false) := by decide

/-- V-CH-6: every rank one past its field. -/
theorem test_emitr_truncates : stream (exec (.emitr 16 8 32) { small with chan := 1#2 }) =
    some ([0x00, 0x00], 4, true) := by decide

/-- V-RD-5, V-RD-6. -/
theorem test_rdb :
    response (exec (.rdb 1) (withBuf [0xff, 0x03] 2 small)) = some (true, 3) ∧
    response (exec (.rdb 2) (withBuf [0xff, 0x03] 2 small)) = some (false, 0) := by decide

/-- V-FA-2: the status word, while FAULTED. -/
theorem test_rdst_status :
    response (exec (.rdst 0#2) { withBuf [0x05] 3 small with faulted := true, faultCode := 2#3 }) =
      some (true, 371) := by decide

/-- V-RD-2, V-RD-3, V-RD-4. -/
theorem test_rdst_len_prev_bits :
    response (exec (.rdst 1#2) (withBuf [0xff, 0x03] 2 small)) = some (true, 2) ∧
    response (exec (.rdst 2#2) { small with prevOnset := 7 }) = some (true, 7) ∧
    response (exec (.rdst 3#2) (withBuf [0xff, 0x03] 2 small)) = some (true, 10) := by decide

/-! ## Steps -/

/-- The first command after reset: V-S3, WBITS 9, 3. -/
theorem test_step_first_command :
    stream (step (State.reset.withFetchWord 128 0x30000003000000000000000000000009)) = some ([0x01], 3, true) := by decide

/-- V-BW-13: an illegal word. -/
theorem test_step_illegal :
    after (step (State.reset.withFetchWord 128 0x20000000000000000000000000000002)) =
      some { State.reset with faulted := true, faultCode := 1#3 } := by decide

/-- V-FA-1: a write while FAULTED is discarded. -/
theorem test_step_discards :
    after (step ({ small with faulted := true, faultCode := 2#3 }.withFetchWord 128 0x300000080000000000000000000000ff)) =
      some { small with faulted := true, faultCode := 2#3 } := by decide

/-- V-FA-5. -/
theorem test_step_rst :
    after (step { withBuf [0x05] 3 small with faulted := true, faultCode := 2#3, input := [.rst] }) = some small := by decide

/-- R201. -/
theorem test_step_before_reset :
    step { small with rstDone := false, input := [.cmd 0#128] } = .refused .commandBeforeReset := rfl

/-! ## The assembler (R80, R81) -/

theorem test_assemble :
    assembleLine ("WBITS 0x1F, 5 ; a field".toList) = some [.wbits 31 5#6] ∧
    assembleLine ("DINS pitch, 294".toList) = some [.dins 2#2 294] ∧
    assembleLine ("WBITS 1, 64".toList) = none ∧
    assembleLine ("ENCODE noise, (0,1,2)".toList) =
      some [.clrs, .dclr, .setch 0#2, .rewind, .scan 0 1 2, .rewind, .emit 0 1 2] := by decide

/-! ## For each obligation with hypotheses, terms that meet them together

Where an obligation has several clauses, the witness is a conjunction with a part for each. -/

/-- A note in triangle's pass 2: prior bytes, dictionaries that hold its values, BUF_CAP met exactly. -/
def noteReady : State := { withBuf [0x00, 0x00] 4 (withDicts [0, 65] [7, 13] [262, 294] small) with chan := 1#2 }

/-- Seven bits written, one byte allowed. -/
def oneByteFull : State := { withBuf [0x7f] 7 small with cfg.bufCap := 1 }

/-- A latched fault. -/
def faultedState : State := { small with faulted := true, faultCode := 2#3 }

/-- A command that answers a next state. -/
def Completes (i : Instr) (s : State) : Prop := ∃ t, exec i s = .next t

/-- A command that answers a next state that is not FAULTED. -/
def Succeeds (i : Instr) (s : State) : Prop := ∃ t, exec i s = .next t ∧ t.faulted = false

theorem witness_DecodeOfEncodeIsTheCommand :
    (Instr.wbits 0xffffffff 63#6).wf = true ∧ (Instr.dins 2#2 0xffffffff).wf = true ∧ (Instr.rdst 3#2).wf = true := by
  decide

theorem witness_EncodeOfDecodeIsTheWord :
    decode 0xd0000000ffffffffffffffffffffffff#128 = .ok (.emitr 0xffffffff 0xffffffff 0xffffffff) := by decide

theorem witness_IllegalWordsAreExactlyThese :
    (rowMatches (rowOf .rdst) 0xf00000c0000000000000000000000000#128 = true) ∧
    (rowMatches (rowOf .rank) 0x900000c0000000000000000000000000#128 = true ∧
      selOf 0x900000c0000000000000000000000000#128 = 3#2) ∧
    (∃ s : State, s.rstDone = true ∧ s.faulted = false ∧ s.input = .cmd 0x1#128 :: [.rst] ∧
      decode 0x1#128 = .error (.reservedBits "NOP")) :=
  ⟨by decide, by decide, { small with input := [.cmd 0x1#128, .rst] }, rfl, rfl, rfl, by decide⟩

theorem witness_ByteFormIsLittleEndian :
    ((List.replicate 16 0xff#8).length = 16) ∧ ((List.replicate 15 0xff#8).length ≠ 16) ∧
    ((List.replicate 17 0xff#8).length ≠ 16) ∧ 15 < 16 := by decide

theorem witness_AssemblerEmitsOnlyLegalWords :
    ∃ is, assembleLine ("BEGIN pulse".toList) = some is ∧ Instr.setch 2#2 ∈ is :=
  ⟨[.clrs, .dclr, .setch 2#2, .rewind], by decide, by decide⟩

theorem witness_StepRunsTheDecodedCommand :
    (∃ s : State, s.rstDone = true ∧ s.input = .cmd (encode (.wbit 1#1)) :: [.rst] ∧
      decode (encode (.wbit 1#1)) = .ok (.wbit 1#1)) ∧
    (small.rstDone = true ∧ decodeTableWord 128 0x20000000000000000000000000000001 = some (.wbit 1#1)) ∧
    small.input = [] :=
  ⟨⟨{ small with input := [.cmd (encode (.wbit 1#1)), .rst] }, rfl, rfl, by decide⟩, by decide, rfl⟩

theorem witness_RstLeavesTheResetValues :
    { withBuf [0xff, 0x01] 1 faultedState with input := [.rst] }.input = [.rst] := rfl

theorem witness_CommandBeforeResetIsRefused :
    (∃ s : State, s.rstDone = false ∧ s.input = .cmd 0#128 :: []) ∧ (∃ s : State, s.input = .rst :: []) :=
  ⟨⟨{ small with rstDone := false, input := [.cmd 0#128] }, rfl, rfl⟩, { small with input := [.rst] }, rfl⟩

theorem witness_NoStepStopsAfterReset :
    small.rstDone = true ∧
    step { small with rstDone := false, input := [.cmd 0#128] } = .refused .commandBeforeReset := ⟨rfl, rfl⟩

theorem witness_ParametersNeverChange :
    (∃ t, step { faultedState with input := [.rst] } = .next t) ∧ Completes (.scan 0 0 0) small := ⟨⟨_, rfl⟩, _, rfl⟩

theorem witness_ResetMeetsTheInvariant :
    Config.wf { bufCap := 1, dictCap := 1 } ∧ Config.wf { bufCap := 2 ^ 29, dictCap := 2 ^ 32 - 1 } := by decide

theorem witness_EveryStepKeepsTheInvariant :
    StateInv { oneByteFull with input := [.cmd (encode (.wbit 1#1))] } ∧
    ∃ t, step { oneByteFull with input := [.cmd (encode (.wbit 1#1))] } = .next t ∧ t.faulted = true :=
  ⟨by decide, _, rfl, by decide⟩

theorem witness_OutputLengthAndTrailingByte :
    (StateInv small ∧ small.bitOffset = 0#3 ∧ small.tb % 8 = 0) ∧ (StateInv oneByteFull ∧ oneByteFull.tb % 8 ≠ 0) := by
  decide

theorem witness_WrittenStreamBitsNeverChange :
    StateInv noteReady ∧ 11 < noteReady.tb ∧ 0 < noteReady.len - 1 ∧ Completes (.emit 65 13 294) noteReady :=
  ⟨by decide, by decide, by decide, _, rfl⟩

theorem witness_FaultsArePrecise :
    ∃ s t : State, s.faulted = false ∧ step s = .next t ∧ t.faulted = true :=
  ⟨{ oneByteFull with input := [.cmd (encode (.wbit 1#1))] }, _, rfl, rfl, by decide⟩

theorem witness_CommandsRaiseOnlyTheirFaults :
    ((Instr.wbit 1#1).wf = true ∧ oneByteFull.faulted = false ∧
      ∃ t, exec (.wbit 1#1) oneByteFull = .next t ∧ t.faulted = true) ∧
    (∃ s t : State, s.faulted = false ∧ s.input = .cmd 1#128 :: [] ∧ step s = .next t ∧ t.faulted = true) ∧
    FaultCause.miss ∈ mayRaise (.emit 0 0 0) :=
  ⟨⟨rfl, rfl, _, rfl, by decide⟩, ⟨{ small with input := [.cmd 1#128] }, _, rfl, rfl, rfl, by decide⟩, by decide⟩

theorem witness_FaultedBlockOnlyReads :
    (faultedState.rstDone = true ∧ faultedState.faulted = true) ∧
    (decode (encode (.rdb 0)) = .ok (.rdb 0) ∧ runsWhileFaulted (.rdb 0) = true) ∧
    (decode (encode .clrs) = .ok .clrs ∧ runsWhileFaulted .clrs = false) ∧
    decode 1#128 = .error (.reservedBits "NOP") := by decide

theorem witness_OnlyRstLeavesAFault :
    (∃ s t : State, s.faulted = true ∧ step s = .next t ∧ ∃ rest, s.input = .rst :: rest) ∧
    (∃ s t : State, s.faulted = true ∧ step s = .next t ∧ ∀ rest, s.input ≠ .rst :: rest) :=
  ⟨⟨{ faultedState with input := [.rst] }, _, rfl, rfl, [], rfl⟩, faultedState, _, rfl, rfl, fun _ h => nomatch h⟩

theorem witness_SelThreeIsIllegal :
    (Instr.setch 3#2).wf = false ∧ (Instr.drd 3#2 0).wf = false ∧ small.faulted = false ∧ faultedState.faulted = true := by
  decide

/-- The last bit position of the last byte but one: the write appends the byte that reaches BUF_CAP. -/
theorem witness_WbitWritesOneStreamBit :
    (∃ s : State, StateInv s ∧ s.faulted = false ∧ ¬ (s.bitOffset = 7#3 ∧ s.len = s.cfg.bufCap) ∧ s.bitOffset = 7#3) ∧
    (∃ s : State, StateInv s ∧ s.faulted = false ∧ ¬ (s.bitOffset = 7#3 ∧ s.len = s.cfg.bufCap) ∧
      s.len = s.cfg.bufCap) :=
  ⟨⟨{ oneByteFull with cfg.bufCap := 2 }, by decide, by decide, by decide, by decide⟩,
    { small with cfg.bufCap := 1 }, by decide, by decide, by decide, by decide⟩

/-- The widest field fits BUF_CAP exactly, and one bit more would not. -/
theorem witness_WbitsAddsTheFieldToTheStream :
    StateInv { small with cfg.bufCap := 8 } ∧ small.faulted = false ∧
      small.len + (small.bitOffset.toNat + (63#6).toNat) / 8 ≤ 8 ∧ ¬ small.len + (small.bitOffset.toNat + 64) / 8 ≤ 8 := by
  decide

theorem witness_FieldBitsGoLeastSignificantFirst :
    StateInv (withBuf [0x1f] 5 small) ∧ Succeeds (.wbits 0x3f 6#6) (withBuf [0x1f] 5 small) :=
  ⟨by decide, _, rfl, by decide⟩

theorem witness_WritesThatDoNotFitRaiseBufFull :
    (oneByteFull.faulted = false ∧ oneByteFull.cfg.bufCap < oneByteFull.len + (oneByteFull.bitOffset.toNat + 1) / 8) ∧
    (oneByteFull.cfg.bufCap < oneByteFull.len + (oneByteFull.bitOffset.toNat + (1#6).toNat) / 8) ∧
    (∃ s : State, s.faulted = false ∧ s.chan ≠ 3#2 ∧ s.prevOnset ≤ 65 ∧
      (∀ f, usesField s.chan f = true → byField (65 - s.prevOnset) 13 294 f ∈ s.dict f) ∧
      s.cfg.bufCap < s.len + (s.bitOffset.toNat + bitsPerNote s.chan) / 8) :=
  ⟨by decide, by decide, { noteReady with cfg.bufCap := 3 }, by decide, by decide, by decide,
    fun f _ => by cases f <;> decide, by decide⟩

theorem witness_ClrsClearsTheStreamOnly : oneByteFull.faulted = false ∧ faultedState.faulted = true := by decide

/-- The widest pair of widths, filling BUF_CAP exactly. -/
theorem witness_ConcatenationLaw :
    small.faulted = false ∧ (31#6).toNat + (32#6).toNat ≤ 63 ∧
      (0xffffffff#32).toNat % 2 ^ (31#6).toNat + ((1#32).toNat % 2 ^ (32#6).toNat) * 2 ^ (31#6).toNat < 2 ^ 32 ∧
      small.len + (small.bitOffset.toNat + ((31#6).toNat + (32#6).toNat)) / 8 ≤ 8 := by decide

theorem witness_OvfIsStickyAndInert :
    (Completes (.wbits 0 0#6) { small with ovf := true } ∧ (Instr.wbits 0 0#6) ≠ .clrs) ∧
    (∀ sel, (Instr.wbits 9 3#6) ≠ .rdst sel) := ⟨⟨⟨_, rfl⟩, by decide⟩, fun _ h => nomatch h⟩

/-- A new value that takes the last free entry, and a value that is there in a full dictionary. -/
theorem witness_DinsInsertsInOrder :
    (∃ s : State, s.faulted = false ∧ (s.dict .pitch).Pairwise (· < ·) ∧ 5 ∉ s.dict .pitch ∧
      (s.dict .pitch).length ≠ s.cfg.dictCap ∧ ∃ x ∈ s.dict .pitch, 5 < x) ∧
    (∃ s : State, s.faulted = false ∧ (s.dict .delta).Pairwise (· < ·) ∧ 5 ∈ s.dict .delta) :=
  ⟨⟨withDicts [] [] [4, 0xffffffff] small, by decide, by decide, by decide, by decide, 0xffffffff, by decide, by decide⟩,
    withDicts [1, 2, 5] [] [] small, by decide⟩

theorem witness_DinsIntoAFullDictionaryFaults :
    ∃ s : State, s.faulted = false ∧ 3 ∉ s.dict .delta ∧ (s.dict .delta).length = s.cfg.dictCap :=
  ⟨withDicts [1, 2, 5] [] [] small, by decide⟩

theorem witness_DclrEmptiesTheDictionaries : (withDicts [0] [4] [9] small).faulted = false := by decide

/-- The last index in range and the first out of range. -/
theorem witness_DrdReadsAnEntry :
    (2#32).toNat < ((withDicts [0, 5, 7] [] [] small).dict .delta).length ∧
    ((withDicts [0, 5, 7] [] [] small).dict .delta).length ≤ (3#32).toNat := by decide

theorem witness_DszReadsTheSize :
    ∃ s : State, (s.dict .delta).length ≤ s.cfg.dictCap ∧ s.cfg.dictCap ≤ 2 ^ 32 - 1 :=
  ⟨{ withDicts [0, 5, 7] [] [] small with cfg.dictCap := 2 ^ 32 - 1 }, by simp [withDicts, State.dict], Nat.le_refl _⟩

theorem witness_RankReadsTheIndex :
    ∃ s : State, dictWf s.cfg.dictCap (s.dict .delta) ∧ s.cfg.dictCap ≤ 2 ^ 32 - 1 ∧ 7 ∈ s.dict .delta ∧
      6 ∉ s.dict .delta := ⟨withDicts [0, 5, 7] [] [] small, by decide⟩

theorem witness_RankAndDrdAreInverse :
    ∃ s : State, StateInv s ∧ 7 ∈ s.dict .delta ∧ (2#32).toNat < (s.dict .delta).length :=
  ⟨withDicts [0, 5, 7] [] [] small, by decide⟩

/-- The distinct values fill the dictionary exactly. -/
theorem witness_InsertionsBuildTheSortedSet :
    small.faulted = false ∧ small.dict .pitch = [] ∧ ([294, 262, 294, 0] : List Word).dedup.length ≤ small.cfg.dictCap := by
  decide

theorem witness_SetchSelectsTheChannel : small.faulted = false ∧ 2#2 ≠ 3#2 ∧ 0#2 ≠ 3#2 := by decide

theorem witness_RewindZeroesPrevOnset : { small with prevOnset := 12 }.faulted = false := rfl

theorem witness_OnlySetchWritesChan :
    (Completes (.scan 0 0 0) small ∧ ∀ ch, (Instr.scan 0 0 0) ≠ .setch ch) ∧
    (∃ t, exec .nop small = .next t ∧ t.chan = 3#2) := ⟨⟨⟨_, rfl⟩, fun _ h => nomatch h⟩, _, rfl, rfl⟩

theorem witness_PrevOnsetIsTheLastNotesOnset :
    (noteReady.faulted = false ∧ Succeeds (.emit 65 13 294) noteReady) ∧ Succeeds .rewind noteReady ∧
    (Succeeds (.setch 0#2) noteReady ∧ (Instr.setch 0#2) ≠ .rewind ∧
      ∀ o d p, (Instr.setch 0#2) ≠ .scan o d p ∧ (Instr.setch 0#2) ≠ .emit o d p) :=
  ⟨⟨rfl, _, rfl, by decide⟩, ⟨_, rfl, by decide⟩, ⟨_, rfl, by decide⟩, by decide,
    fun _ _ _ => ⟨(fun h => nomatch h), (fun h => nomatch h)⟩⟩

theorem witness_NoChannelFaults : small.faulted = false ∧ small.chan = 3#2 := by decide

theorem witness_DecreasingOnsetFaults :
    ∃ s : State, s.faulted = false ∧ s.chan ≠ 3#2 ∧ 9 < s.prevOnset :=
  ⟨{ small with chan := 0#2, prevOnset := 10 }, by decide⟩

theorem witness_ScanIntoAFullDictionaryFaults :
    ∃ s : State, s.faulted = false ∧ s.chan ≠ 3#2 ∧ s.prevOnset ≤ 9 ∧ usesField s.chan .length = true ∧
      byField (9 - s.prevOnset) 2 1 .length ∉ s.dict .length ∧ (s.dict .length).length = s.cfg.dictCap :=
  ⟨{ withDicts [0] [1] [1] small with cfg.dictCap := 1, chan := 2#2, prevOnset := 9 }, by decide⟩

/-- The delta dictionary takes its last entry, the others are full and hold the values. -/
theorem witness_ScanCollectsTheNotesValues :
    ∃ s : State, s.faulted = false ∧ s.chan ≠ 3#2 ∧ s.prevOnset ≤ 9 ∧
      (∀ f, usesField s.chan f = true → (s.dict f).Pairwise (· < ·) ∧
        (byField (9 - s.prevOnset) 1 1 f ∈ s.dict f ∨ (s.dict f).length ≠ s.cfg.dictCap)) ∧
      usesField 0#2 .length = false :=
  ⟨{ withDicts [1, 2] [0, 1, 2] [1, 2, 3] small with chan := 2#2, prevOnset := 9 }, by decide, by decide, by decide,
    fun f _ => by cases f <;> decide, by decide⟩

theorem witness_NoiseIgnoresDurationAndPitch :
    ({ small with chan := 0#2 } : State).chan = 0#2 ∧ Completes (.scan 5 1 2) { small with chan := 0#2 } :=
  ⟨rfl, _, rfl⟩

theorem witness_EmitOfAMissingValueFaults :
    noteReady.faulted = false ∧ noteReady.chan ≠ 3#2 ∧ noteReady.prevOnset ≤ 65 ∧
      usesField noteReady.chan .pitch = true ∧
      byField (65 - noteReady.prevOnset) 13 300 .pitch ∉ noteReady.dict .pitch := by decide

/-- The note's bits reach BUF_CAP exactly. -/
theorem witness_EmitWritesTheRanks :
    StateInv noteReady ∧ noteReady.faulted = false ∧ noteReady.chan ≠ 3#2 ∧ noteReady.prevOnset ≤ 65 ∧
      (∀ f, usesField noteReady.chan f = true → byField (65 - noteReady.prevOnset) 13 294 f ∈ noteReady.dict f) ∧
      noteReady.len + (noteReady.bitOffset.toNat + bitsPerNote noteReady.chan) / 8 ≤ noteReady.cfg.bufCap :=
  ⟨by decide, by decide, by decide, by decide, fun f _ => by cases f <;> decide, by decide⟩

theorem witness_EmitrWritesTheGivenRanks :
    StateInv noteReady ∧ noteReady.faulted = false ∧ noteReady.chan ≠ 3#2 ∧
      noteReady.len + (noteReady.bitOffset.toNat + bitsPerNote noteReady.chan) / 8 ≤ noteReady.cfg.bufCap := by decide

theorem witness_NotesFillTheStreamInOrder :
    ∃ s1 t u v : State, StateInv noteReady ∧ exec .clrs noteReady = .next s1 ∧
      (∀ i ∈ [Instr.emit 0 7 262, .emitr 1 1 1], isEmission i = true) ∧
      execAll [.emit 0 7 262, .emitr 1 1 1] s1 = .next t ∧ t.faulted = false ∧ 1 < 2 ∧
      execAll ([Instr.emit 0 7 262, .emitr 1 1 1].take 1) s1 = .next u ∧
      execAll ([Instr.emit 0 7 262, .emitr 1 1 1].take 2) s1 = .next v :=
  ⟨_, _, _, _, by decide, rfl, by decide, rfl, by decide, by decide, rfl, rfl⟩

/-- The distinct values fill DICT_CAP and the bits fill BUF_CAP. -/
theorem witness_EncodeProtocolGivesTheChannelEncoding :
    ∃ s : State, s.faulted = false ∧ 1#2 ≠ 3#2 ∧ sortedByOnset [⟨0, 7, 262⟩, ⟨65, 13, 294⟩] ∧
      (∀ f, usesField 1#2 f = true → (fieldValues [⟨0, 7, 262⟩, ⟨65, 13, 294⟩] f).dedup.length ≤ s.cfg.dictCap) ∧
      [(⟨0, 7, 262⟩ : Note), ⟨65, 13, 294⟩].length * bitsPerNote 1#2 / 8 + 1 ≤ s.cfg.bufCap :=
  ⟨{ small with cfg.dictCap := 2 }, by decide, by decide, by decide, fun f _ => by cases f <;> decide, by decide⟩

theorem witness_RdstReadsTheStatus : StateInv noteReady ∧ StateInv faultedState := by decide

/-- The last address in range and the first out of range. -/
theorem witness_RdbReadsAByte :
    (1#32).toNat < (output (withBuf [0xff, 0x03] 2 small)).length ∧
    (output (withBuf [0xff, 0x03] 2 small)).length ≤ (2#32).toNat := by decide

theorem witness_ReadsChangeOnlyRespAndRepeat :
    ((Instr.drd 2#2 0).wf = true ∧ runsWhileFaulted (.drd 2#2 0) = true) ∧
    (writesResp (.drd 2#2 0) = true ∧
      ∀ j ∈ [Instr.nop, .rdst 3#2], j.wf = true ∧ runsWhileFaulted j = true) := by decide

theorem witness_OnlyReadsWriteResp :
    (Completes (.wbit 1#1) small ∧ writesResp (.wbit 1#1) = false) ∧
    (oneByteFull.faulted = false ∧ ∃ t, exec (.wbit 1#1) oneByteFull = .next t ∧ t.faulted = true) ∧
    (writesResp (.rdb 1) = true ∧ (Instr.rdb 1).wf = true ∧ ∃ t, exec (.rdb 1) small = .next t ∧ t.resp.v = false) :=
  ⟨⟨⟨_, rfl⟩, by decide⟩, ⟨rfl, _, rfl, by decide⟩, by decide, by decide, _, rfl, by decide⟩

theorem witness_InstancesAreIndependent :
    (systemReset 2)[(1 : Fin 2)] = .next State.reset ∧
    ∃ sys : System 2, sys[(0 : Fin 2)] = .refused .commandBeforeReset ∧ ∀ s : State, sys[(0 : Fin 2)] ≠ .next s :=
  ⟨rfl, #v[.refused .commandBeforeReset, .next small], rfl, fun _ h => nomatch h⟩

/-- R63, R201: instance 0 takes a command before its first RST; instance 1 goes on. -/
theorem test_refused_instance_leaves_the_others :
    let sys : System 2 := #v[.next { small with rstDone := false, input := [.cmd 0#128] },
      .next { small with input := [.cmd (encode (.setch 1#2)), .cmd (encode (.wbit 1#1))] }]
    (systemRun [1, 0, 0, 1] sys)[(0 : Fin 2)] = .refused .commandBeforeReset ∧
    stream (systemRun [1, 0, 0, 1] sys)[(1 : Fin 2)] = some ([0x01], 1, false) := by
  exact ⟨rfl, by decide⟩

end Sys2Proof.Machine.Tests
end

section
/-! PROOFS. 00_scope.md: the parameters of R8, and the model's own fields, which stand beside the registers of R23. -/

namespace Sys2Proof.Machine

/-- The fields of the state that are none of R23's registers: the parameters, the host's moves still to come, and whether
an RST has been asserted (log 4, log 1, log 3). -/
def State.ownFields (s : State) : Config × List HostMove × Bool := (s.cfg, s.input, s.rstDone)

theorem ownFields_eq_iff (s t : State) :
    t.ownFields = s.ownFields ↔ t.cfg = s.cfg ∧ t.input = s.input ∧ t.rstDone = s.rstDone := by
  simp only [State.ownFields, Prod.mk.injEq]

/-! ## The operations that keep them -/

@[simp] theorem ownFields_latchFault (c : FaultCause) (s : State) : (latchFault c s).ownFields = s.ownFields := rfl

@[simp] theorem ownFields_writeBit (b : Bool) (s : State) : (writeBit b s).ownFields = s.ownFields := by
  rw [writeBit_frame]; rfl

@[simp] theorem ownFields_writeField (v w : Nat) (s : State) : (writeField v w s).ownFields = s.ownFields := by
  rw [writeField_frame]; rfl

@[simp] theorem ownFields_writeFields (fields : List (Nat × Nat)) (s : State) :
    (writeFields fields s).ownFields = s.ownFields := by
  rw [writeFields_frame]; rfl

@[simp] theorem ownFields_insertValue (f : DictField) (v : Word) (s : State) :
    (insertValue f v s).ownFields = s.ownFields := by
  rw [insertValue_frame]; rfl

@[simp] theorem ownFields_insertFields (fields : List (DictField × Nat)) (val : DictField → Word) (s : State) :
    (insertFields fields val s).ownFields = s.ownFields := by
  rw [insertFields_frame]; rfl

/-! ## Commands and steps -/

/-- Every effect of a command is on R23's registers alone. -/
theorem ExecEffect.ownFields_eq {i : Instr} {s t : State} (h : ExecEffect i s t) : t.ownFields = s.ownFields := by
  cases h with
  | discarded | nop => rfl
  | illegal | raised => exact ownFields_latchFault _ s
  | read | clrs | setch | dclr | rewind => rfl
  | wbit => exact ownFields_writeBit _ s
  | wbits => exact ownFields_writeField _ _ s
  | dins => exact ownFields_insertValue _ _ s
  | scan => exact ownFields_insertFields _ _ s
  | emit | emitr => exact ownFields_writeFields _ s

theorem exec_ownFields {i : Instr} {s t : State} (h : exec i s = .next t) : t.ownFields = s.ownFields :=
  (exec_effect_of_next h).ownFields_eq

/-- An illegal word is discarded or latches ILLEGAL (R77, R184): neither touches the model's own fields. -/
theorem runIllegal_ownFields {s t : State} (h : runIllegal s = .next t) : t.ownFields = s.ownFields := by
  rcases unlessFaulted_cases s (raise .illegal s) with ⟨-, hr⟩ | ⟨-, hr⟩
  · cases hr.symm.trans h; rfl
  · cases hr.symm.trans h; exact ownFields_latchFault _ s

/-- A step may take a move and may assert RST, but the parameters are as before it. -/
theorem step_cfg {s t : State} (h : step s = .next t) : t.cfg = s.cfg := by
  rcases step_cases s with ⟨-, idle⟩ | ⟨_, _, -, -, refused⟩ | ⟨_, _, _, -, -, -, command⟩ |
    ⟨_, _, _, -, -, -, illegal⟩ | ⟨_, -, reset⟩
  · cases idle.symm.trans h; rfl
  · cases refused.symm.trans h
  · exact congrArg Prod.fst (exec_ownFields (command.symm.trans h))
  · exact congrArg Prod.fst (runIllegal_ownFields (illegal.symm.trans h))
  · cases reset.symm.trans h; rfl

/-- Settles O12: the parameters by the inversion of `step`, the model's own fields by the inversion of `exec`. -/
theorem parametersNeverChange : Obligations.ParametersNeverChange :=
  ⟨fun _ _ h => step_cfg h, fun _ s t h => (ownFields_eq_iff s t).mp (exec_ownFields h)⟩

end Sys2Proof.Machine
end

section
/-! PROOFS. 10_state.md: what a command may do to each register of R23, the invariant of the state, the step and reset.
Each register has one lemma that says everything a command can do to it, read off the inversion of `exec`. -/

namespace Sys2Proof

/-! ## The byte form of a word (R71) -/

theorem bytesValue_append (bs cs : List Byte) :
    bytesValue (bs ++ cs) = bytesValue bs + 256 ^ bs.length * bytesValue cs := by
  induction bs with
  | nil => simp [bytesValue]
  | cons b bs ih => simp only [List.cons_append, bytesValue, ih, List.length_cons, pow_succ]; ring

/-- The lowest `n` bytes of a word, as a number. -/
theorem bytesValue_extract (word : CmdWord) (n : Nat) :
    bytesValue ((List.range n).map fun i => word.extractLsb' (8 * i) 8) = word.toNat % 256 ^ n := by
  induction n with
  | zero => simp [bytesValue, Nat.mod_one]
  | succ n ih =>
    have hbyte : (word.extractLsb' (8 * n) 8).toNat = word.toNat / 256 ^ n % 256 := by
      rw [BitVec.extractLsb'_toNat, Nat.shiftRight_eq_div_pow, pow_mul]
      norm_num
    rw [List.range_succ, List.map_append, bytesValue_append, ih, List.length_map, List.length_range, Nat.mod_pow_succ]
    simp only [List.map_cons, List.map_nil, bytesValue, hbyte, Nat.mul_zero, Nat.add_zero]

/-- A word comes back from its 16 bytes. -/
theorem wordOfBytes_bytesOfWord (word : CmdWord) : wordOfBytes (bytesOfWord word) = some word := by
  have hlength : (bytesOfWord word).length = 16 := by simp [bytesOfWord]
  rw [wordOfBytes, if_pos hlength, bytesOfWord, bytesValue_extract]
  exact congrArg some (BitVec.eq_of_toNat_eq (by have := word.isLt; simp; omega))

theorem decodeBytes_bytesOfWord (word : CmdWord) : decodeBytes (bytesOfWord word) = decode word := by
  rw [decodeBytes, wordOfBytes_bytesOfWord]

/-- A table row that decodes is a word of 128 bits that decodes. -/
theorem decodeTableWord_eq_some {nbits w : Nat} {i : Instr} (h : decodeTableWord nbits w = some i) :
    ∃ word, tableWord nbits w = some word ∧ decode word = .ok i := by
  unfold decodeTableWord at h
  split at h
  · cases h
  · rename_i word hword
    rw [decodeBytes_bytesOfWord] at h
    split at h
    · rename_i j hj; cases h; exact ⟨word, hword, hj⟩
    · cases h

end Sys2Proof

namespace Sys2Proof.Machine

/-! ## The step (R20, R182) -/

/-- A step that takes a legal word runs its command. -/
theorem step_of_cmd {s : State} {word : CmdWord} {rest : List HostMove} {i : Instr} (hready : s.rstDone = true)
    (hinput : s.input = .cmd word :: rest) (hdecode : decode word = .ok i) :
    step s = exec i { s with input := rest } := by
  simp only [step, advance, hinput, takeMove, runCommand, hready, hdecode, Bool.not_true, Bool.false_eq_true, if_false]

/-- Settles O7: a table row reaches the block as the word of its bits, and that word's byte form is the word again. -/
theorem stepRunsTheDecodedCommand : Obligations.StepRunsTheDecodedCommand := by
  refine ⟨fun s word rest i => step_of_cmd, fun s nbits w i hready hrow => ?_, fun s hidle => ?_⟩
  · obtain ⟨word, hword, hdecode⟩ := decodeTableWord_eq_some hrow
    have hfetch : s.withFetchWord nbits w = presentWord word s := by rw [State.withFetchWord, hword]
    rw [hfetch]
    exact step_of_cmd (s := presentWord word s) hready rfl hdecode
  · rw [step, advance, hidle]

/-! ## What a command may do to the stream (R27, R50) -/

/-- The registers the stream is read from. -/
def State.streamParts (s : State) : Mem × Nat × BitVec 3 := (s.mem, s.byteIndex, s.bitOffset)

theorem streamParts_eq_iff (s t : State) :
    t.streamParts = s.streamParts ↔ t.mem = s.mem ∧ t.byteIndex = s.byteIndex ∧ t.bitOffset = s.bitOffset := by
  simp only [State.streamParts, Prod.mk.injEq]

/-- `t` holds the stream of `s` with `n` more bits behind it: TB grows by `n` and no bit below it changes. -/
structure AppendsBits (n : Nat) (s t : State) : Prop where
  tb : t.tb = s.tb + n
  ends : StreamEnds s → StreamEnds t
  bits : StreamEnds s → ∀ k, k < s.tb → streamBit t k = streamBit s k

theorem AppendsBits.refl (s : State) : AppendsBits 0 s s := ⟨rfl, id, fun _ _ _ => rfl⟩

/-- Only the stream's own registers matter. -/
theorem AppendsBits.congr {n : Nat} {s t u : State} (h : AppendsBits n s t) (hu : u.streamParts = t.streamParts) :
    AppendsBits n s u := by
  obtain ⟨hmem, hbyte, hbit⟩ := (streamParts_eq_iff t u).mp hu
  have hlen : u.len = t.len := congrArg (· + 1) hbyte
  have htb : u.tb = t.tb := by rw [tb_eq, tb_eq, hbyte, hbit]
  have hbits : ∀ k, streamBit u k = streamBit t k := fun k => by rw [streamBit, streamBit, hmem]
  refine ⟨htb.trans h.tb, fun hs => ?_, fun hs k hk => (hbits k).trans (h.bits hs k hk)⟩
  have ht := h.ends hs
  exact ⟨hmem ▸ ht.wf, by rw [hmem, hlen]; exact ht.listed, fun k hk => (hbits k).trans (ht.zeros k (htb ▸ hk))⟩

theorem appendsBits_writeBit (b : Bool) (s : State) : AppendsBits 1 s (writeBit b s) :=
  ⟨writeBit_tb b s, fun h => writeBit_streamEnds h b,
    fun h k hk => by rw [writeBit_streamBit h, if_neg (Nat.ne_of_lt hk)]⟩

theorem appendsBits_writeField (v w : Nat) (s : State) : AppendsBits w s (writeField v w s) :=
  ⟨writeField_tb v w s, fun h => writeField_streamEnds h v w,
    fun h k hk => by rw [writeField_streamBit h, if_neg fun hle => Nat.not_lt.mpr hle.1 hk]⟩

theorem appendsBits_writeFields (fields : List (Nat × Nat)) (s : State) :
    AppendsBits (totalWidth fields) s (writeFields fields s) :=
  ⟨writeFields_tb fields s, fun h => writeFields_streamEnds h fields,
    fun h k hk => by rw [writeFields_streamBit h, if_neg (Nat.not_le.mpr hk)]⟩

/-- A note's ranks, in the field widths of a channel, take the channel's bits per note (R141). -/
theorem appendsBits_noteRanks (ch : BitVec 2) (r : DictField → Nat) (s : State) :
    AppendsBits (bitsPerNote ch) s (writeFields ((chanFields ch).map fun fw => (r fw.1, fw.2)) s) :=
  have hwidth : totalWidth ((chanFields ch).map fun fw => (r fw.1, fw.2)) = bitsPerNote ch := totalWidth_map _ r
  hwidth ▸ appendsBits_writeFields _ s

/-- What a command can do to the stream: CLRS clears it; every other command leaves it or appends bits that fit in
BUF_CAP (R27, R102, R106). -/
theorem ExecEffect.stream_cases {i : Instr} {s t : State} (h : ExecEffect i s t) :
    (i = .clrs ∧ t = clearStream s) ∨ ∃ n, AppendsBits n s t ∧ (n = 0 ∨ bitsFit s n = true) := by
  have unchanged : ∀ {u : State}, u.streamParts = s.streamParts →
      ∃ n, AppendsBits n s u ∧ (n = 0 ∨ bitsFit s n = true) :=
    fun hu => ⟨0, (AppendsBits.refl s).congr hu, .inl rfl⟩
  cases h with
  | clrs _ hi => exact .inl ⟨hi, rfl⟩
  | discarded | illegal | raised | nop | read | setch | dclr | rewind => exact .inr (unchanged rfl)
  | dins => exact .inr (unchanged (by rw [insertValue_frame]; rfl))
  | scan => exact .inr (unchanged (by rw [insertFields_frame]; rfl))
  | wbit _ _ _ hfit => exact .inr ⟨1, appendsBits_writeBit _ s, .inr hfit⟩
  | wbits v w _ _ hfit => exact .inr ⟨w.toNat, appendsBits_writeField v.toNat w.toNat s, .inr hfit⟩
  | emit o d p _ _ _ _ _ hfit =>
    have happ := appendsBits_noteRanks s.chan (fun f => countBelow (byField (o - s.prevOnset) d p f) (s.dict f)) s
    exact .inr ⟨_, happ.congr rfl, .inr hfit⟩
  | emitr a b c _ _ _ hfit =>
    exact .inr ⟨_, appendsBits_noteRanks s.chan (fun f => (byField a b c f).toNat) s, .inr hfit⟩

/-- Every byte below the one TB stands in is made of bits below TB. -/
theorem AppendsBits.memRead_eq {n : Nat} {s t : State} (h : AppendsBits n s t) (hs : StreamEnds s) {j : Nat}
    (hj : j < s.byteIndex) : memRead t.mem j = memRead s.mem j :=
  memRead_eq_of_streamBit fun k hk => h.bits hs k (by rw [tb_eq]; omega)

/-- Settles O16: every command but CLRS appends. -/
theorem writtenStreamBitsNeverChange : Obligations.WrittenStreamBitsNeverChange := by
  intro i s t hinv hi hexec
  obtain ⟨-, hbuf, -⟩ := hinv
  have hs := ((bufferWf_iff_streamEnds s).mp hbuf).1
  rcases (exec_effect_of_next hexec).stream_cases with ⟨hclrs, -⟩ | ⟨n, happ, -⟩
  · exact absurd hclrs hi
  · exact ⟨happ.tb ▸ Nat.le_add_right _ _, happ.bits hs, fun j hj => happ.memRead_eq hs hj⟩

/-! ## The invariant, part by part -/

theorem bufferWf_clearStream {s : State} (h : bufferWf s) : bufferWf (clearStream s) := by
  obtain ⟨-, -, hcap, -⟩ := h
  exact ⟨clearStream_memWf s, by simp, Nat.le_trans (Nat.succ_le_of_lt (len_pos s)) hcap, rfl⟩

/-- Bits that fit leave BUF within BUF_CAP (R24, R102). -/
theorem bufferWf_of_appendsBits {n : Nat} {s t : State} (h : AppendsBits n s t) (hfit : n = 0 ∨ bitsFit s n = true)
    (hcfg : t.cfg = s.cfg) (hs : bufferWf s) : bufferWf t := by
  obtain ⟨hends, hcap⟩ := (bufferWf_iff_streamEnds s).mp hs
  refine (bufferWf_iff_streamEnds t).mpr ⟨h.ends hends, ?_⟩
  rw [len_after h.tb, hcfg]
  rcases hfit with rfl | hfit
  · have := bitOffset_lt s
    omega
  · exact (bitsFit_iff s n).mp hfit

theorem ExecEffect.cfg_eq {i : Instr} {s t : State} (h : ExecEffect i s t) : t.cfg = s.cfg :=
  congrArg Prod.fst h.ownFields_eq

/-- A command keeps what R24 to R28 say of BUF and the cursor. -/
theorem ExecEffect.keeps_bufferWf {i : Instr} {s t : State} (h : ExecEffect i s t) (hs : bufferWf s) : bufferWf t := by
  rcases h.stream_cases with ⟨-, rfl⟩ | ⟨n, happ, hfit⟩
  · exact bufferWf_clearStream hs
  · exact bufferWf_of_appendsBits happ hfit h.cfg_eq hs

/-- An insertion that has room keeps every dictionary well formed (R120, R123). -/
theorem dictWf_insertValue {s : State} {f : DictField} {v : Word} (hroom : lacksRoom s f v = false)
    (hs : ∀ g, dictWf s.cfg.dictCap (s.dict g)) (g : DictField) :
    dictWf s.cfg.dictCap ((insertValue f v s).dict g) := by
  by_cases hg : g = f
  · subst hg
    rw [insertValue_dict_same]
    refine dictInsert_wf (hs g) fun hfull => ?_
    rw [(lacksRoom_iff s g v).mpr hfull] at hroom
    cases hroom
  · rw [insertValue_dict_other hg]
    exact hs g

/-- SCAN's insertions, checked for room before the first of them, keep every dictionary well formed (R120, R146). -/
theorem dictWf_insertFields {s : State} {ch : BitVec 2} {val : DictField → Word}
    (hroom : anyLacksRoom (chanFields ch) val s = false) (hs : ∀ g, dictWf s.cfg.dictCap (s.dict g)) (g : DictField) :
    dictWf s.cfg.dictCap ((insertFields (chanFields ch) val s).dict g) := by
  rw [insertFields_dict _ (chanFields_nodup ch)]
  split
  · rename_i hg
    obtain ⟨⟨f, w⟩, hmem, rfl⟩ := List.mem_map.mp hg
    refine dictInsert_wf (hs f) fun hfull => ?_
    rw [(anyLacksRoom_iff _ val s).mpr ⟨f, w, hmem, hfull⟩] at hroom
    cases hroom
  · exact hs g

/-- A command keeps the dictionaries strictly ascending and within DICT_CAP (R120). -/
theorem ExecEffect.keeps_dictWf {i : Instr} {s t : State} (h : ExecEffect i s t)
    (hs : ∀ g, dictWf s.cfg.dictCap (s.dict g)) (g : DictField) : dictWf t.cfg.dictCap (t.dict g) := by
  rw [h.cfg_eq]
  cases h with
  | discarded | illegal | raised | nop | read | clrs | setch | rewind => exact hs g
  | wbit => rw [writeBit_frame]; exact hs g
  | wbits => rw [writeField_frame]; exact hs g
  | emit | emitr => rw [writeFields_frame]; exact hs g
  | dins _ _ _ _ hroom => exact dictWf_insertValue hroom hs g
  | scan _ _ _ _ _ _ _ hroom => exact dictWf_insertFields hroom hs g
  | dclr => cases g <;> exact ⟨.nil, Nat.zero_le _⟩

/-- The commands that run while FAULTED raise no fault of their own (R181, R184). -/
theorem not_runsWhileFaulted_of_mayRaise {i : Instr} {c : FaultCause} (hc : c ∈ mayRaise i) :
    runsWhileFaulted i = false := by
  cases i with
  | nop | drd | dsz | rank | rdb | rdst => cases hc
  | _ => rfl

/-- What a command can do to RESP (R33): a read writes it, with DATA = 0 where it found nothing; any other command, and
a command that is discarded or faults, leaves it. -/
theorem ExecEffect.resp_cases {i : Instr} {s t : State} (h : ExecEffect i s t) :
    (writesResp i = true ∧ t.faulted = s.faulted ∧ (t.resp.v = false → t.resp.data = 0#32)) ∨
      (t.resp = s.resp ∧ (writesResp i = false ∨ i.wf = false)) := by
  have noRead : runsWhileFaulted i = false → writesResp i = false := fun hi => by rw [writesResp, hi, Bool.false_and]
  cases h with
  | read r hi hr => exact .inl ⟨hi, rfl, hr⟩
  | discarded _ hi => exact .inr ⟨rfl, hi.imp_left noRead⟩
  | illegal _ hw => exact .inr ⟨rfl, .inr hw⟩
  | raised _ _ hc => exact .inr ⟨rfl, .inl (noRead (not_runsWhileFaulted_of_mayRaise hc))⟩
  | nop hi | clrs _ hi | setch _ _ hi | dclr _ hi | rewind _ hi => subst hi; exact .inr ⟨rfl, .inl rfl⟩
  | wbit _ _ hi => subst hi; exact .inr ⟨by rw [writeBit_frame], .inl rfl⟩
  | wbits _ _ _ hi => subst hi; exact .inr ⟨by rw [writeField_frame], .inl rfl⟩
  | dins _ _ _ hi => subst hi; exact .inr ⟨by rw [insertValue_frame], .inl rfl⟩
  | scan _ _ _ _ hi => subst hi; exact .inr ⟨by rw [insertFields_frame], .inl rfl⟩
  | emit _ _ _ _ hi | emitr _ _ _ _ hi => subst hi; exact .inr ⟨by rw [writeFields_frame], .inl rfl⟩

/-- A command either latches a cause of R180 or leaves the latch alone (R183, R185). -/
theorem ExecEffect.fault_cases {i : Instr} {s t : State} (h : ExecEffect i s t) :
    (s.faulted = false ∧ ∃ c, t = latchFault c s) ∨ (t.faulted = s.faulted ∧ t.faultCode = s.faultCode) := by
  cases h with
  | illegal hf => exact .inl ⟨hf, _, rfl⟩
  | raised c hf => exact .inl ⟨hf, c, rfl⟩
  | discarded | nop | read | clrs | setch | dclr | rewind => exact .inr ⟨rfl, rfl⟩
  | wbit => rw [writeBit_frame]; exact .inr ⟨rfl, rfl⟩
  | wbits => rw [writeField_frame]; exact .inr ⟨rfl, rfl⟩
  | dins => rw [insertValue_frame]; exact .inr ⟨rfl, rfl⟩
  | scan => rw [insertFields_frame]; exact .inr ⟨rfl, rfl⟩
  | emit | emitr => rw [writeFields_frame]; exact .inr ⟨rfl, rfl⟩

theorem faultWf_latchFault (c : FaultCause) (s : State) : faultWf (latchFault c s) :=
  ⟨(fun h => nomatch h), fun _ => faultCodeOf_legal c⟩

/-- A command keeps FAULT_CODE at 0 while not FAULTED and at one of 1 to 6 while FAULTED (R34, R180). -/
theorem ExecEffect.keeps_faultWf {i : Instr} {s t : State} (h : ExecEffect i s t) (hs : faultWf s) : faultWf t := by
  rcases h.fault_cases with ⟨-, c, rfl⟩ | ⟨hf, hc⟩
  · exact faultWf_latchFault c s
  · rw [faultWf, hf, hc]; exact hs

/-! ## The invariant (R24, R27, R33, R34, R120, R180) -/

theorem stateInv_iff (s : State) :
    StateInv s ↔ s.cfg.wf ∧ bufferWf s ∧ (∀ f, dictWf s.cfg.dictCap (s.dict f)) ∧
      (s.resp.v = false → s.resp.data = 0#32) ∧ faultWf s := by
  constructor
  · rintro ⟨hcfg, hbuf, hdelta, hlength, hpitch, hresp, hfault⟩
    exact ⟨hcfg, hbuf, fun f => by cases f <;> assumption, hresp, hfault⟩
  · rintro ⟨hcfg, hbuf, hdict, hresp, hfault⟩
    exact ⟨hcfg, hbuf, hdict .delta, hdict .length, hdict .pitch, hresp, hfault⟩

/-- Every effect of a command keeps the invariant, part by part. -/
theorem ExecEffect.keeps_stateInv {i : Instr} {s t : State} (h : ExecEffect i s t) (hs : StateInv s) : StateInv t := by
  obtain ⟨hcfg, hbuf, hdict, hresp, hfault⟩ := (stateInv_iff s).mp hs
  refine (stateInv_iff t).mpr
    ⟨h.cfg_eq ▸ hcfg, h.keeps_bufferWf hbuf, h.keeps_dictWf hdict, ?_, h.keeps_faultWf hfault⟩
  rcases h.resp_cases with ⟨-, -, hr⟩ | ⟨hr, -⟩
  · exact hr
  · rw [hr]; exact hresp

theorem stateInv_latchFault {s : State} (c : FaultCause) (hs : StateInv s) : StateInv (latchFault c s) := by
  obtain ⟨hcfg, hbuf, hdict, hresp, -⟩ := (stateInv_iff s).mp hs
  exact (stateInv_iff _).mpr ⟨hcfg, hbuf, hdict, hresp, faultWf_latchFault c s⟩

theorem stateInv_runIllegal {s t : State} (h : runIllegal s = .next t) (hs : StateInv s) : StateInv t := by
  rcases unlessFaulted_cases s (raise .illegal s) with ⟨-, hr⟩ | ⟨-, hr⟩
  · cases hr.symm.trans h; exact hs
  · cases hr.symm.trans h; exact stateInv_latchFault .illegal hs

/-- RST leaves BUF = [0x00], the dictionaries empty and no fault, which BUF_CAP and DICT_CAP in their ranges allow. -/
theorem stateInv_resetWith {cfg : Config} (input : List HostMove) (hcfg : cfg.wf) :
    StateInv (State.resetWith cfg input) := by
  have hnil : dictWf cfg.dictCap [] := ⟨.nil, Nat.zero_le _⟩
  exact ⟨hcfg, ⟨memWf_reset, (fun _ hc => nomatch hc), hcfg.1, rfl⟩, hnil, hnil, hnil, fun _ => rfl, fun _ => rfl,
    fun hf => nomatch hf⟩

/-- Settles O14: the invariant does not look at the host's moves, so each kind of step keeps it for its own reason. -/
theorem everyStepKeepsTheInvariant : Obligations.EveryStepKeepsTheInvariant := by
  intro s t hs hstep
  have htaken : ∀ rest, StateInv { s with input := rest } := fun _ => hs
  rcases step_cases s with ⟨-, idle⟩ | ⟨_, _, -, -, refused⟩ | ⟨_, rest, _, -, -, -, command⟩ |
    ⟨_, rest, _, -, -, -, illegal⟩ | ⟨rest, -, reset⟩
  · cases idle.symm.trans hstep; exact hs
  · cases refused.symm.trans hstep
  · exact (exec_effect_of_next (command.symm.trans hstep)).keeps_stateInv (htaken rest)
  · exact stateInv_runIllegal (illegal.symm.trans hstep) (htaken rest)
  · cases reset.symm.trans hstep
    exact stateInv_resetWith rest hs.1

/-- Settles O13: reset itself carries parameters in their ranges. -/
theorem resetMeetsTheInvariant : Obligations.ResetMeetsTheInvariant :=
  ⟨fun _ input hcfg => stateInv_resetWith input hcfg, stateInv_resetWith [] (by decide)⟩

/-! ## Reset (R23, R200) -/

/-- Settles O9: R23's table of reset values, read off the literal. -/
theorem resetStateHoldsTheResetValues : Obligations.ResetStateHoldsTheResetValues :=
  ⟨rfl, rfl, rfl, rfl, rfl, rfl, rfl, rfl, rfl, rfl, rfl, rfl, by decide⟩

/-! ## CHAN (R30) -/

/-- What a command can do to CHAN: SETCH writes a channel, every other command leaves it. -/
theorem ExecEffect.chan_cases {i : Instr} {s t : State} (h : ExecEffect i s t) :
    t.chan = s.chan ∨ (i = .setch t.chan ∧ t.chan ≠ 3#2) := by
  cases h with
  | setch c _ hi hc => exact .inr ⟨hi, hc⟩
  | discarded | illegal | raised | nop | read | clrs | dclr | rewind => exact .inl rfl
  | wbit => exact .inl (by rw [writeBit_frame])
  | wbits => exact .inl (by rw [writeField_frame])
  | dins => exact .inl (by rw [insertValue_frame])
  | scan => exact .inl (by rw [insertFields_frame])
  | emit | emitr => exact .inl (by rw [writeFields_frame])

/-- Settles O40: SETCH with SEL = 3 is illegal, so it writes no NONE. -/
theorem onlySetchWritesChan : Obligations.OnlySetchWritesChan := by
  intro i s t hexec
  rcases (exec_effect_of_next hexec).chan_cases with hsame | ⟨hsetch, hsome⟩
  · exact ⟨fun _ => hsame, fun hnone => hsame ▸ hnone⟩
  · exact ⟨fun hnot => absurd hsetch (hnot t.chan), fun hnone => absurd hnone hsome⟩

/-! ## A command that needs a channel (R30) -/

/-- The check for a channel comes before whatever a command does next. -/
theorem raises_nochan {s : State} (hf : s.faulted = false) (hch : s.chan = 3#2)
    (run : Host.Outcome State Fault Refusal) :
    unlessFaulted s (if s.chan = chanNone then raise .nochan s else run) =
      .next { s with faulted := true, faultCode := 2#3 } := by
  have hnone : s.chan = chanNone := hch
  rw [unlessFaulted_of_running hf, if_pos hnone]
  rfl

/-- Settles O42: all three commands check for a channel first. -/
theorem noChannelFaults : Obligations.NoChannelFaults :=
  fun _ _ _ _ hf hch => ⟨raises_nochan hf hch _, raises_nochan hf hch _, raises_nochan hf hch _⟩

/-! ## PREV_ONSET (R31) -/

/-- PREV_ONSET after a command that completes from a state where it is `old` (R31). -/
def prevOnsetAfter (i : Instr) (old : Word) : Word :=
  match i with
  | .scan onset _ _ => onset
  | .emit onset _ _ => onset
  | .rewind => 0#32
  | _ => old

/-- What a command can do to PREV_ONSET: write it as R31 says when it completes, and leave it when it is discarded or
faults. -/
theorem ExecEffect.prevOnset_cases {i : Instr} {s t : State} (h : ExecEffect i s t) :
    t.prevOnset = prevOnsetAfter i s.prevOnset ∨ (t.prevOnset = s.prevOnset ∧ t.faulted = true) := by
  cases h with
  | discarded hf => exact .inr ⟨rfl, hf⟩
  | illegal | raised => exact .inr ⟨rfl, rfl⟩
  | read _ hi =>
    refine .inl ?_
    cases i with
    | drd | dsz | rank | rdb | rdst => rfl
    | _ => cases hi
  | nop hi | clrs _ hi | setch _ _ hi | dclr _ hi | rewind _ hi | scan _ _ _ _ hi | emit _ _ _ _ hi =>
    subst hi; exact .inl rfl
  | wbit _ _ hi => subst hi; exact .inl (by rw [writeBit_frame]; rfl)
  | wbits _ _ _ hi => subst hi; exact .inl (by rw [writeField_frame]; rfl)
  | dins _ _ _ hi => subst hi; exact .inl (by rw [insertValue_frame]; rfl)
  | emitr _ _ _ _ hi => subst hi; exact .inl (by rw [writeFields_frame]; rfl)

/-- Settles O41: a command that completes leaves `prevOnsetAfter`. -/
theorem prevOnsetIsTheLastNotesOnset : Obligations.PrevOnsetIsTheLastNotesOnset := by
  intro i s t _ hexec hcompleted
  have hprev : t.prevOnset = prevOnsetAfter i s.prevOnset := by
    rcases (exec_effect_of_next hexec).prevOnset_cases with hprev | ⟨-, hfaulted⟩
    · exact hprev
    · exact absurd hfaulted (Bool.eq_false_iff.mp hcompleted)
  refine ⟨?_, ?_, fun hnote hrewind => ?_⟩
  · rintro o d p (rfl | rfl) <;> exact hprev
  · rintro rfl; exact hprev
  · rw [hprev]
    cases i with
    | scan o d p => exact absurd rfl (hnote o d p).1
    | emit o d p => exact absurd rfl (hnote o d p).2
    | rewind => exact absurd rfl hrewind
    | _ => rfl

/-! ## RESP (R33) -/

/-- Settles O56: a command writes RESP only as a read, and a read latches no fault. -/
theorem onlyReadsWriteResp : Obligations.OnlyReadsWriteResp := by
  intro i s t hexec
  rcases (exec_effect_of_next hexec).resp_cases with ⟨hread, hfaulted, hdata⟩ | ⟨hsame, hnot⟩
  · refine ⟨fun hno => ?_, fun hs ht => ?_, fun _ _ => hdata⟩
    · rw [hread] at hno; cases hno
    · rw [hfaulted, hs] at ht; cases ht
  · refine ⟨fun _ => hsame, fun _ _ => hsame, fun hread hwf => ?_⟩
    rcases hnot with hnot | hnot
    · rw [hread] at hnot; cases hnot
    · rw [hwf] at hnot; cases hnot

/-! ## OVF (R29) -/

/-- A set OVF stays set under every command but CLRS. -/
theorem ExecEffect.ovf_sticky {i : Instr} {s t : State} (h : ExecEffect i s t) (hi : i ≠ .clrs) (hs : s.ovf = true) :
    t.ovf = true := by
  cases h with
  | clrs _ hclrs => exact absurd hclrs hi
  | discarded | illegal | raised | nop | read | setch | dclr | rewind => exact hs
  | wbit => rw [writeBit_frame]; exact hs
  | wbits => rw [writeField_ovf, hs, Bool.true_or]
  | dins => rw [insertValue_frame]; exact hs
  | scan => rw [insertFields_frame]; exact hs
  | emit | emitr => exact (writeFields_ovf _ s).trans (by rw [hs, Bool.true_or])

/-- Two states that differ in OVF at most. -/
def SameButOvf (s s' : State) : Prop := ∃ b, s' = { s with ovf := b }

theorem sameButOvf_iff (s s' : State) : SameButOvf s s' ↔ s' = { s with ovf := s'.ovf } :=
  ⟨fun ⟨_, h⟩ => by rw [h], fun h => ⟨_, h⟩⟩

/-- Two outcomes that are next states, which differ in OVF at most. -/
def AgreeButOvf (r r' : Host.Outcome State Fault Refusal) : Prop :=
  ∃ t t', r = .next t ∧ r' = .next t' ∧ SameButOvf t t'

/-! The operations of the state do the same whatever OVF is. -/

theorem writeBit_sameButOvf {s s' : State} (h : SameButOvf s s') (b : Bool) :
    SameButOvf (writeBit b s) (writeBit b s') := by
  obtain ⟨o, rfl⟩ := h
  refine ⟨o, ?_⟩
  unfold writeBit
  dsimp only
  split <;> rfl

theorem writeBitsFrom_sameButOvf {s s' : State} (h : SameButOvf s s') (v i n : Nat) :
    SameButOvf (writeBitsFrom v i n s) (writeBitsFrom v i n s') := by
  induction n generalizing i s s' with
  | zero => exact h
  | succ n ih => exact ih (writeBit_sameButOvf h _) (i + 1)

theorem writeField_sameButOvf {s s' : State} (h : SameButOvf s s') (v w : Nat) :
    SameButOvf (writeField v w s) (writeField v w s') := by
  obtain ⟨o, ho⟩ := writeBitsFrom_sameButOvf h v 0 w
  exact ⟨o || truncates v w, by rw [writeField, writeBits, ho]; rfl⟩

theorem writeFields_sameButOvf {s s' : State} (h : SameButOvf s s') (fields : List (Nat × Nat)) :
    SameButOvf (writeFields fields s) (writeFields fields s') := by
  induction fields generalizing s s' with
  | nil => exact h
  | cons vw rest ih => exact ih (writeField_sameButOvf h vw.1 vw.2)

theorem insertValue_sameButOvf {s s' : State} (h : SameButOvf s s') (f : DictField) (v : Word) :
    SameButOvf (insertValue f v s) (insertValue f v s') := by
  obtain ⟨o, rfl⟩ := h
  exact ⟨o, by cases f <;> rfl⟩

theorem insertFields_sameButOvf {s s' : State} (h : SameButOvf s s') (fields : List (DictField × Nat))
    (val : DictField → Word) : SameButOvf (insertFields fields val s) (insertFields fields val s') := by
  induction fields generalizing s s' with
  | nil => exact h
  | cons fw rest ih => exact ih (insertValue_sameButOvf h fw.1 (val fw.1))

theorem setPrevOnset_sameButOvf {s s' : State} (h : SameButOvf s s') (onset : Word) :
    SameButOvf { s with prevOnset := onset } { s' with prevOnset := onset } := by
  obtain ⟨o, rfl⟩ := h
  exact ⟨o, rfl⟩

theorem nextDelta_withOvf (onset : Word) (s : State) (b : Bool) :
    nextDelta onset { s with ovf := b } = nextDelta onset s := rfl

theorem dict_withOvf (s : State) (b : Bool) (f : DictField) : ({ s with ovf := b } : State).dict f = s.dict f := rfl

/-- EMIT's lookups read the dictionaries alone. -/
theorem lookupRanks_congr {s s' : State} (h : ∀ f, s'.dict f = s.dict f) (fields : List (DictField × Nat))
    (val : DictField → Word) : lookupRanks fields val s' = lookupRanks fields val s := by
  induction fields with
  | nil => rfl
  | cons fw rest ih => simp only [lookupRanks, h, ih]

/-! The ways a command ends do the same whatever OVF is. -/

theorem agreeButOvf_next {s s' : State} (h : SameButOvf s s') : AgreeButOvf (.next s) (.next s') :=
  ⟨s, s', rfl, rfl, h⟩

theorem agreeButOvf_raise {s s' : State} (h : SameButOvf s s') (c : FaultCause) :
    AgreeButOvf (raise c s) (raise c s') := by
  obtain ⟨o, rfl⟩ := h
  exact agreeButOvf_next ⟨o, rfl⟩

theorem agreeButOvf_unlessFaulted {s s' : State} {r r' : Host.Outcome State Fault Refusal} (h : SameButOvf s s')
    (hr : AgreeButOvf r r') : AgreeButOvf (unlessFaulted s r) (unlessFaulted s' r') := by
  have hfaulted : s'.faulted = s.faulted := by obtain ⟨o, rfl⟩ := h; rfl
  rw [unlessFaulted, unlessFaulted, hfaulted]
  split
  · exact agreeButOvf_next h
  · exact hr

theorem agreeButOvf_withField {s s' : State} {run run' : DictField → Host.Outcome State Fault Refusal}
    (h : SameButOvf s s') (sel : BitVec 2) (hrun : ∀ f, AgreeButOvf (run f) (run' f)) :
    AgreeButOvf (withField sel s run) (withField sel s' run') := by
  rw [withField, withField]
  split
  · exact hrun _
  · exact agreeButOvf_unlessFaulted h (agreeButOvf_raise h .illegal)

/-- A check that does not look at OVF, in front of two outcomes. -/
theorem agreeButOvf_ite {c : Prop} [Decidable c] {x x' y y' : Host.Outcome State Fault Refusal}
    (hx : AgreeButOvf x x') (hy : AgreeButOvf y y') : AgreeButOvf (if c then x else y) (if c then x' else y') := by
  split
  · exact hx
  · exact hy

/-- Every command but RDST does the same, OVF aside, whatever OVF is. -/
theorem exec_agreeButOvf {i : Instr} (hi : ∀ sel, i ≠ .rdst sel) (s : State) (b : Bool) :
    AgreeButOvf (exec i s) (exec i { s with ovf := b }) := by
  have h : SameButOvf s { s with ovf := b } := ⟨b, rfl⟩
  have raises : ∀ c, AgreeButOvf (raise c s) (raise c { s with ovf := b }) := agreeButOvf_raise h
  have gated : ∀ {r r'}, AgreeButOvf r r' →
      AgreeButOvf (unlessFaulted s r) (unlessFaulted { s with ovf := b } r') := agreeButOvf_unlessFaulted h
  cases i with
  | rdst sel => exact absurd rfl (hi sel)
  | nop => exact agreeButOvf_next h
  | clrs => exact gated (agreeButOvf_next ⟨false, rfl⟩)
  | wbit bit => exact gated (agreeButOvf_ite (agreeButOvf_next (writeBit_sameButOvf h _)) (raises _))
  | wbits v w => exact gated (agreeButOvf_ite (agreeButOvf_next (writeField_sameButOvf h _ _)) (raises _))
  | setch c => exact agreeButOvf_ite (gated (raises _)) (gated (agreeButOvf_next ⟨b, rfl⟩))
  | dins sel v =>
    exact agreeButOvf_withField h sel fun f =>
      gated (agreeButOvf_ite (raises _) (agreeButOvf_next (insertValue_sameButOvf h f v)))
  | dclr => exact gated (agreeButOvf_next ⟨b, rfl⟩)
  | drd sel index =>
    refine agreeButOvf_withField h sel fun f => ?_
    simp only [dict_withOvf]
    split <;> exact agreeButOvf_next ⟨b, rfl⟩
  | dsz sel => exact agreeButOvf_withField h sel fun f => agreeButOvf_next ⟨b, rfl⟩
  | rank sel v =>
    refine agreeButOvf_withField h sel fun f => ?_
    simp only [dict_withOvf]
    split <;> exact agreeButOvf_next ⟨b, rfl⟩
  | scan o d p =>
    refine gated (agreeButOvf_ite (raises _) ?_)
    rw [nextDelta_withOvf o s b]
    split
    · exact raises _
    · exact agreeButOvf_ite (raises _)
        (agreeButOvf_next (setPrevOnset_sameButOvf (insertFields_sameButOvf h _ _) o))
  | rewind => exact gated (agreeButOvf_next ⟨b, rfl⟩)
  | emit o d p =>
    refine gated (agreeButOvf_ite (raises _) ?_)
    rw [nextDelta_withOvf o s b]
    split
    · exact raises _
    · rw [lookupRanks_congr (dict_withOvf s b)]
      dsimp only
      split
      · exact raises _
      · exact agreeButOvf_ite
          (agreeButOvf_next (setPrevOnset_sameButOvf (writeFields_sameButOvf h _) o)) (raises _)
  | emitr x y z =>
    exact gated (agreeButOvf_ite (raises _)
      (agreeButOvf_ite (agreeButOvf_next (writeFields_sameButOvf h _)) (raises _)))
  | rdb a =>
    have hbyte : readByte { s with ovf := b } a.toNat = readByte s a.toNat := rfl
    simp only [exec, execRdb, hbyte]
    split <;> exact agreeButOvf_next ⟨b, rfl⟩

/-- Settles O29: stickiness by the inversion of `exec`, inertness by running each command beside itself. -/
theorem ovfIsStickyAndInert : Obligations.OvfIsStickyAndInert := by
  refine ⟨fun i s t hovf hi hexec => (exec_effect_of_next hexec).ovf_sticky hi hovf, fun i s b hi => ?_⟩
  obtain ⟨t, t', ht, ht', hsame⟩ := exec_agreeButOvf hi s b
  exact ⟨t, t', ht, ht', (sameButOvf_iff t t').mp hsame⟩

/-! ## The status (R35, R171) -/

/-- The status word holds each field in its bits (R35): once the fields below are passed over, a field stands lowest. -/
theorem statusWord_fields (s : State) :
    (statusWord s).extractLsb' 0 3 = s.bitOffset ∧ (statusWord s).extractLsb' 3 1 = BitVec.ofBool s.ovf ∧
      (statusWord s).extractLsb' 4 2 = s.chan ∧ (statusWord s).extractLsb' 6 1 = BitVec.ofBool s.faulted ∧
      (statusWord s).extractLsb' 7 3 = s.faultCode ∧ (statusWord s).extractLsb' 10 22 = 0#22 := by
  unfold statusWord
  refine ⟨BitVec.extractLsb'_append_eq_right, ?_, ?_, ?_, ?_, ?_⟩
  · rw [BitVec.extractLsb'_append_eq_of_le (by decide)]; exact BitVec.extractLsb'_append_eq_right
  · iterate 2 rw [BitVec.extractLsb'_append_eq_of_le (by decide)]
    exact BitVec.extractLsb'_append_eq_right
  · iterate 3 rw [BitVec.extractLsb'_append_eq_of_le (by decide)]
    exact BitVec.extractLsb'_append_eq_right
  · iterate 4 rw [BitVec.extractLsb'_append_eq_of_le (by decide)]
    exact BitVec.extractLsb'_append_eq_right
  · iterate 5 rw [BitVec.extractLsb'_append_eq_of_le (by decide)]
    exact BitVec.extractLsb'_eq_self

/-- LEN and TB fit in RESP.DATA (R28). -/
theorem len_tb_lt {s : State} (h : StateInv s) : s.len < 2 ^ 32 ∧ s.tb < 2 ^ 32 := by
  obtain ⟨⟨-, hmax, -⟩, ⟨-, -, hcap, -⟩, -⟩ := h
  have hoff := bitOffset_lt s
  rw [len_eq] at hcap ⊢
  rw [tb_eq]
  omega

/-- Settles O53: the status word field by field; LEN and TB uncut because BUF_CAP is at most 2^29. -/
theorem rdstReadsTheStatus : Obligations.RdstReadsTheStatus := by
  intro s hs
  obtain ⟨hlen, htb⟩ := len_tb_lt hs
  exact ⟨⟨statusWord s, rfl, statusWord_fields s⟩,
    ⟨BitVec.ofNat 32 s.len, rfl, Nat.mod_eq_of_lt hlen⟩, rfl,
    ⟨BitVec.ofNat 32 s.tb, rfl, Nat.mod_eq_of_lt htb⟩⟩

end Sys2Proof.Machine
end

section
/-! PROOFS. 20_memory.md: BUF and its output, the stream a field is written to, the reads, and several instances. -/

namespace Sys2Proof

/-! ## Bytes as a number (R55) -/

/-- Bit `k` of a value of bytes is bit `k mod 8` of byte `k div 8`. -/
theorem testBit_bytesValue (bs : List Byte) (k : Nat) :
    (bytesValue bs).testBit k = ((bs[k / 8]?).getD 0x00#8).getLsbD (k % 8) := by
  induction bs generalizing k with
  | nil => simp [bytesValue]
  | cons b bs ih =>
    have hsplit : bytesValue (b :: bs) = 2 ^ 8 * bytesValue bs + b.toNat := by simp only [bytesValue]; omega
    rw [hsplit, Nat.testBit_two_pow_mul_add _ b.isLt]
    split
    · rename_i hk
      rw [Nat.div_eq_of_lt hk, Nat.mod_eq_of_lt hk]; rfl
    · rename_i hk
      obtain ⟨j, rfl⟩ := Nat.exists_eq_add_of_le (Nat.not_lt.mp hk)
      rw [Nat.add_sub_cancel_left, ih, Nat.add_mod_left, Nat.add_div_left _ (by decide), List.getElem?_cons_succ]

end Sys2Proof

namespace Sys2Proof.Machine

/-! ## Instances (R63, R190) -/

/-- Each member of a system takes the steps the schedule names for it, and no others. -/
theorem systemRun_getElem {n : Nat} (schedule : List (Fin n)) (sys : System n) (k : Fin n) :
    (systemRun schedule sys)[k] = instanceStep^[schedule.count k] sys[k] := by
  induction schedule generalizing sys with
  | nil => rfl
  | cons j rest ih =>
    rw [systemRun, ih]
    by_cases hj : k = j
    · subst hj
      rw [systemStep_self, List.count_cons_self, Function.iterate_succ_apply]
    · rw [systemStep_other hj, List.count_cons_of_ne (Ne.symm hj)]

/-- A run that has ended takes no further step. -/
theorem iterate_instanceStep_of_stopped {o : Host.Outcome State Fault Refusal} (h : ∀ s, o ≠ .next s) (m : Nat) :
    instanceStep^[m] o = o :=
  Function.iterate_fixed (instanceStep_of_stopped h) m

/-- The steps one block takes from a state are its run alone. -/
theorem iterate_instanceStep_next (m : Nat) (s : State) : instanceStep^[m] (.next s) = core.run m s := by
  induction m generalizing s with
  | zero => rfl
  | succ m ih =>
    rw [Function.iterate_succ_apply, instanceStep_next]
    rcases core_run_succ m s with ⟨t, hstep, hrun⟩ | ⟨hended, hrun⟩
    · rw [hrun, hstep]; exact ih t
    · rw [hrun]; exact iterate_instanceStep_of_stopped hended m

/-- Settles O57: what the schedule does to a member is to iterate its own step, which is its run alone. -/
theorem instancesAreIndependent : Obligations.InstancesAreIndependent := by
  intro n schedule sys k
  rw [systemRun_getElem]
  refine ⟨fun s hs => ?_, fun hended => iterate_instanceStep_of_stopped hended _⟩
  rw [hs]; exact iterate_instanceStep_next _ s

/-! ## The output (R54, R65) -/

@[simp] theorem length_output (s : State) : (output s).length = s.len := by simp [output]

@[simp] theorem getElem_output (s : State) (j : Nat) (h : j < (output s).length) :
    (output s)[j] = memRead s.mem j := by simp [output]

theorem getLast?_output (s : State) : (output s).getLast? = some (memRead s.mem s.byteIndex) := by
  simp [output, len_eq, List.range_succ]

theorem streamEnds_of_stateInv {s : State} (h : StateInv s) : StreamEnds s := by
  obtain ⟨-, hbuf, -⟩ := h
  exact ((bufferWf_iff_streamEnds s).mp hbuf).1

/-- The bits of the current byte from BIT_OFFSET up are zero (R27). -/
theorem StreamEnds.currentByte_high {s : State} (h : StreamEnds s) {k : Nat} (hk : s.bitOffset.toNat ≤ k)
    (hk8 : k < 8) : (memRead s.mem s.byteIndex).getLsbD k = false := by
  rw [← streamBit_byte s _ _ hk8]
  exact h.zeros _ (Nat.add_le_add_left hk _)

/-- Settles O15: LEN and TB are read off the cursor, and the current byte has no bit at or beyond BIT_OFFSET. -/
theorem outputLengthAndTrailingByte : Obligations.OutputLengthAndTrailingByte := by
  intro s hs
  have hends := streamEnds_of_stateInv hs
  have hlen : s.len = s.tb / 8 + 1 := by rw [tb_div, len_eq]
  refine ⟨hlen, (length_output s).trans hlen, fun h0 => ?_, fun _ => ?_, fun _ => ?_,
    fun k hk hk8 => hends.currentByte_high hk hk8, (len_tb_lt hs).2⟩
  · have hzero : memRead s.mem s.byteIndex = 0x00#8 := byte_ext fun k hk8 => by
      rw [hends.currentByte_high (by simp [h0]) hk8, BitVec.getLsbD_zero]
    rw [getLast?_output, hzero]
  · omega
  · omega

/-! ## BUF read as a number (R55) -/

/-- Bit `k` of the number is stream bit `k`. -/
theorem testBit_bufValue {s : State} (h : StreamEnds s) (k : Nat) : (bufValue s).testBit k = streamBit s k := by
  rw [bufValue, testBit_bytesValue]
  by_cases hk : k / 8 < s.len
  · rw [List.getElem?_eq_getElem (by rwa [length_output]), Option.getD_some, getElem_output, streamBit]
  · have htb : s.tb ≤ k := by have := tb_div s; rw [len_eq] at hk; omega
    rw [List.getElem?_eq_none (by rw [length_output]; omega), h.zeros k htb]
    simp

theorem bufValue_lt {s : State} (h : StreamEnds s) : bufValue s < 2 ^ s.tb :=
  Nat.lt_pow_two_of_testBit _ fun k hk => (testBit_bufValue h k).trans (h.zeros k hk)

/-- A field write ORs the low `w` bits of its value in at TB. -/
theorem bufValue_writeField {s : State} (h : StreamEnds s) (v w : Nat) :
    bufValue (writeField v w s) = bufValue s ||| ((v % 2 ^ w) <<< s.tb) := by
  refine Nat.eq_of_testBit_eq fun k => ?_
  rw [testBit_bufValue (writeField_streamEnds h v w), writeField_streamBit h, Nat.testBit_or, testBit_bufValue h,
    Nat.testBit_shiftLeft, Nat.testBit_mod_two_pow]
  by_cases hk : s.tb ≤ k
  · have hin : k - s.tb < w ↔ k < s.tb + w := by omega
    simp [hk, h.zeros k hk, hin]
  · simp [hk]

/-- The bits ORed in lie above every set bit, so the OR adds them. -/
theorem bufValue_or_eq_add {s : State} (h : StreamEnds s) (x : Nat) :
    bufValue s ||| (x <<< s.tb) = bufValue s + x * 2 ^ s.tb := by
  rw [Nat.or_comm, ← Nat.shiftLeft_add_eq_or_of_lt (bufValue_lt h), Nat.shiftLeft_eq, Nat.add_comm]

/-! ## WBITS (R101, R105) -/

/-- What WBITS can do while not FAULTED: write its field where it fits, or raise BUF_FULL. -/
theorem exec_wbits_cases {s : State} (hf : s.faulted = false) (value : Word) (width : BitVec 6) :
    (bitsFit s width.toNat = true ∧ exec (.wbits value width) s = .next (writeField value.toNat width.toNat s)) ∨
      (bitsFit s width.toNat = false ∧ exec (.wbits value width) s = .next (latchFault .bufFull s)) := by
  simp only [exec, execWbits, unlessFaulted_of_running hf]
  cases bitsFit s width.toNat
  · exact .inr ⟨rfl, rfl⟩
  · exact .inl ⟨rfl, rfl⟩

/-- R103 in the form of an inequality. -/
theorem truncates_eq_decide (v w : Nat) : truncates v w = decide (2 ^ w ≤ v) :=
  Bool.eq_iff_iff.mpr ((truncates_iff v w).trans decide_eq_true_iff.symm)

/-- Settles O23: WBITS that fits is one field write. -/
theorem wbitsAddsTheFieldToTheStream : Obligations.WbitsAddsTheFieldToTheStream := by
  intro s value width hs hf hfit
  have hends := streamEnds_of_stateInv hs
  have hvalue := bufValue_writeField hends value.toNat width.toNat
  have hexec : exec (.wbits value width) s = .next (writeField value.toNat width.toNat s) := by
    rcases exec_wbits_cases hf value width with ⟨-, hexec⟩ | ⟨hfull, -⟩
    · exact hexec
    · rw [(bitsFit_iff s width.toNat).mpr hfit] at hfull; cases hfull
  refine ⟨_, hexec, writeField_tb _ _ s, hvalue.trans (bufValue_or_eq_add hends _), hvalue, ?_,
    writeField_frame _ _ s, fun a => memRead_outside fun k hk => ?_⟩
  · rw [writeField_ovf, truncates_eq_decide]
  · rw [writeField_streamBit hends, if_neg hk]

/-- Settles O24: WBITS that completes is one field write, which says where each bit goes. -/
theorem fieldBitsGoLeastSignificantFirst : Obligations.FieldBitsGoLeastSignificantFirst := by
  intro s t value width hs hf hexec hcompleted
  have hends := streamEnds_of_stateInv hs
  rcases exec_wbits_cases hf value width with ⟨-, hwrite⟩ | ⟨-, hraise⟩
  · cases hwrite.symm.trans hexec
    refine ⟨fun i hi => ?_, (appendsBits_writeField _ _ s).bits hends⟩
    rw [writeField_streamBit hends, if_pos (by omega), Nat.add_sub_cancel_left]
  · cases hraise.symm.trans hexec
    cases hcompleted

/-! ## The reads (R58, R172) -/

/-- Settles O54: RDB reads the byte of BUF where there is one. -/
theorem rdbReadsAByte : Obligations.RdbReadsAByte := by
  intro s address
  simp only [exec, execRdb, length_output, getElem_output]
  rcases readByte_cases s address.toNat with ⟨hin, hread⟩ | ⟨hout, hread⟩
  · rw [hread]
    exact ⟨fun _ => rfl, fun hout => absurd hin (Nat.not_lt.mpr hout)⟩
  · rw [hread]
    exact ⟨fun hin => absurd hin (Nat.not_lt.mpr hout), fun _ => rfl⟩

/-- A legal command that runs while FAULTED changes RESP at most. -/
theorem exec_eq_withResp {i : Instr} (hwf : i.wf = true) (hi : runsWhileFaulted i = true) (s : State) :
    ∃ r, exec i s = .next { s with resp := r } := by
  obtain ⟨t, hexec, heffect⟩ := exec_effect i s
  cases heffect with
  | nop => exact ⟨s.resp, hexec⟩
  | read r => exact ⟨r, hexec⟩
  | discarded _ hnot =>
    rcases hnot with hnot | hnot
    · rw [hi] at hnot; cases hnot
    · rw [hwf] at hnot; cases hnot
  | illegal _ hnot => rw [hwf] at hnot; cases hnot
  | raised c _ hc => rw [not_runsWhileFaulted_of_mayRaise hc] at hi; cases hi
  | clrs _ h | wbit _ _ h | wbits _ _ _ h | setch _ _ h | dins _ _ _ h | dclr _ h | scan _ _ _ _ h | rewind _ h
  | emit _ _ _ _ h | emitr _ _ _ _ h => subst h; cases hi

/-- Commands that run while FAULTED change RESP at most, however many of them run. -/
theorem execAll_eq_withResp {is : List Instr} (h : ∀ i ∈ is, i.wf = true ∧ runsWhileFaulted i = true)
    (s : State) : ∃ r, execAll is s = .next { s with resp := r } := by
  induction is generalizing s with
  | nil => exact ⟨s.resp, rfl⟩
  | cons i rest ih =>
    obtain ⟨hwf, hi⟩ := h i (by simp)
    obtain ⟨r, hexec⟩ := exec_eq_withResp hwf hi s
    rw [execAll, hexec]
    exact ih (fun j hj => h j (by simp [hj])) { s with resp := r }

theorem exists_selOfField {sel : BitVec 2} (h : selLegal sel = true) : ∃ f, sel = selOfField f := by
  rcases fieldOfSel_cases sel with ⟨f, hf, -⟩ | ⟨-, -, hnot⟩
  · exact ⟨f, hf⟩
  · rw [h] at hnot; cases hnot

/-- A read answers the same whatever RESP holds before it. -/
theorem exec_read_withResp {i : Instr} (hwf : i.wf = true) (hi : writesResp i = true) (s : State) (r : Resp) :
    exec i { s with resp := r } = exec i s := by
  cases i with
  | drd sel index =>
    obtain ⟨f, rfl⟩ := exists_selOfField hwf
    simp only [exec, execDrd, withField_selOfField]; rfl
  | dsz sel =>
    obtain ⟨f, rfl⟩ := exists_selOfField hwf
    simp only [exec, execDsz, withField_selOfField]; rfl
  | rank sel value =>
    obtain ⟨f, rfl⟩ := exists_selOfField hwf
    simp only [exec, execRank, withField_selOfField]; rfl
  | rdb address => rfl
  | rdst sel => rfl
  | _ => cases hi

theorem runsWhileFaulted_of_writesResp {i : Instr} (h : writesResp i = true) : runsWhileFaulted i = true :=
  (Bool.and_eq_true_iff.mp h).1

/-- Settles O55: what stands between two reads changes RESP at most, and a read does not look at RESP. -/
theorem readsChangeOnlyRespAndRepeat : Obligations.ReadsChangeOnlyRespAndRepeat := by
  refine ⟨fun i s hwf hi => exec_eq_withResp hwf hi s, fun i s between hwf hi hbetween => ?_⟩
  obtain ⟨r, hread⟩ := exec_eq_withResp hwf (runsWhileFaulted_of_writesResp hi) s
  obtain ⟨r', hruns⟩ := execAll_eq_withResp hbetween { s with resp := r }
  exact ⟨r, { s with resp := r' }, hread, hruns, (exec_read_withResp hwf hi s r').trans hread⟩

end Sys2Proof.Machine
end

section
/-! PROOFS. 30_encoding.md: the encoder against the table of R74, decoding as its inverse, the byte form, and the commands
a line of assembly gives. A word matches a row exactly when it is the word of the command built from it, so decoding is
said in terms of the encoder from there on. -/

namespace Sys2Proof

/-! ## A word and its fields (R70) -/

theorem word_eq_fields (word : CmdWord) :
    word = opOf word ++ word.extractLsb' 104 20 ++ selOf word ++ wOf word ++ cOf word ++ bOf word ++ aOf word := by
  unfold opOf selOf wOf cOf bOf aOf
  iterate 6 rw [BitVec.extractLsb'_append_extractLsb'_eq_extractLsb' (by rfl)]
  exact BitVec.extractLsb'_eq_self.symm

/-- A word with the bits outside a mask cleared and OP put in, field by field. -/
theorem packFields_or_and (word : CmdWord) (op : BitVec 4) (sel : BitVec 2) (w : BitVec 6) (c b a : Word) :
    packFields op 0 0 0 0 0 ||| (word &&& packFields 0 sel w c b a) =
      packFields op (selOf word &&& sel) (wOf word &&& w) (cOf word &&& c) (bOf word &&& b) (aOf word &&& a) := by
  conv_lhs => rw [word_eq_fields word]
  unfold packFields
  change (_ : BitVec (4 + 20 + 2 + 6 + 32 + 32 + 32)) ||| (_ &&& _) = _
  simp only [BitVec.and_append, BitVec.or_append]
  simp

/-- The operand of WBIT is bit 0 of A. -/
theorem bitOperand_eq (word : CmdWord) : word.extractLsb' 0 1 = (aOf word).setWidth 1 := by
  refine BitVec.eq_of_toNat_eq ?_
  simp [aOf]

theorem setWidth_setWidth_one (x : Word) : (x.setWidth 1).setWidth 32 = x &&& 1#32 := by
  refine BitVec.eq_of_toNat_eq ?_
  simp [Nat.and_one_is_mod]; omega

/-! ## The rows of R74 -/

/-- The bits of a word that a command's row leaves free: those its operands are in. -/
def operandMask : Opcode → CmdWord
  | .nop | .clrs | .dclr | .rewind => packFields 0 0 0 0 0 0
  | .wbit => packFields 0 0 0 0 0 1#32
  | .wbits => packFields 0 0 (.allOnes 6) 0 0 (.allOnes 32)
  | .setch | .dsz | .rdst => packFields 0 (.allOnes 2) 0 0 0 0
  | .dins | .drd | .rank => packFields 0 (.allOnes 2) 0 0 0 (.allOnes 32)
  | .scan | .emit | .emitr => packFields 0 0 0 (.allOnes 32) (.allOnes 32) (.allOnes 32)
  | .rdb => packFields 0 0 0 0 0 (.allOnes 32)

theorem not_mask_rowOf (op : Opcode) : ~~~(rowOf op).mask = operandMask op := by
  cases op <;> rfl

theorem pattern_rowOf (op : Opcode) : (rowOf op).pattern = packFields (opcodeBits op) 0 0 0 0 0 := by
  cases op <;> rfl

/-- Encoding what is built from a word keeps the word's operand bits and makes the other bits those of the row. -/
theorem encode_buildInstr (op : Opcode) (word : CmdWord) :
    encode (buildInstr op word) = (rowOf op).pattern ||| (word &&& ~~~(rowOf op).mask) := by
  rw [pattern_rowOf, not_mask_rowOf]
  cases op with
  | wbit =>
    simp only [operandMask, packFields_or_and, buildInstr, encode, opcodeBits, bitOperand_eq, setWidth_setWidth_one]
    simp
  | _ =>
    simp only [operandMask, packFields_or_and, BitVec.and_allOnes, buildInstr, encode, opcodeBits]
    simp

theorem opcodeOfInstr_buildInstr (op : Opcode) (word : CmdWord) : opcodeOfInstr (buildInstr op word) = op := by
  cases op <;> rfl

/-- The words of all commands lie in their own rows. -/
theorem encodesInItsRow (i : Instr) : Laws.EncodesInItsRow.Statement i := by
  cases i with
  | nop => exact Laws.EncodesInItsRow.nop
  | clrs => exact Laws.EncodesInItsRow.clrs
  | wbit bit => exact Laws.EncodesInItsRow.wbit bit
  | wbits value width => exact Laws.EncodesInItsRow.wbits value width
  | setch channel => exact Laws.EncodesInItsRow.setch channel
  | dins field value => exact Laws.EncodesInItsRow.dins field value
  | dclr => exact Laws.EncodesInItsRow.dclr
  | drd field index => exact Laws.EncodesInItsRow.drd field index
  | dsz field => exact Laws.EncodesInItsRow.dsz field
  | rank field value => exact Laws.EncodesInItsRow.rank field value
  | scan onset duration pitch => exact Laws.EncodesInItsRow.scan onset duration pitch
  | rewind => exact Laws.EncodesInItsRow.rewind
  | emit onset duration pitch => exact Laws.EncodesInItsRow.emit onset duration pitch
  | emitr rdelta rlength rpitch => exact Laws.EncodesInItsRow.emitr rdelta rlength rpitch
  | rdb address => exact Laws.EncodesInItsRow.rdb address
  | rdst selector => exact Laws.EncodesInItsRow.rdst selector

theorem rowMatches_encode (i : Instr) : rowMatches (rowOf (opcodeOfInstr i)) (encode i) = true :=
  have ⟨_, hrow, _⟩ := encodesInItsRow i
  hrow

/-- A word matches a row exactly when it is the word of the command that the row builds from it. -/
theorem rowMatches_iff (op : Opcode) (word : CmdWord) :
    rowMatches (rowOf op) word = true ↔ encode (buildInstr op word) = word := by
  refine ⟨fun h => ?_, fun h => ?_⟩
  · have hword : word &&& (rowOf op).mask = (rowOf op).pattern := beq_iff_eq.mp h
    rw [encode_buildInstr, ← hword, ← BitVec.and_or_distrib_left, BitVec.or_not_self, BitVec.and_allOnes]
  · have hrow := rowMatches_encode (buildInstr op word)
    rwa [opcodeOfInstr_buildInstr, h] at hrow

/-- The row a word matches is the one its OP selects (R73), so there is one at most. -/
theorem opcodeOf_of_rowMatches {op : Opcode} {word : CmdWord} (h : rowMatches (rowOf op) word = true) :
    opcodeOf (opOf word) = op := by
  obtain ⟨hop, -⟩ := encodesInItsRow (buildInstr op word)
  rw [(rowMatches_iff op word).mp h, opcodeOfInstr_buildInstr] at hop
  rw [hop, opcodeOf_opcodeBits]

/-! ## Decoding (R77, R78) -/

/-- What decoding can answer: no row matches, the word's row matches with a SEL of 3 it does not allow, or the command its
row builds. -/
theorem decode_cases (word : CmdWord) :
    ((∀ op, rowMatches (rowOf op) word = false) ∧ ∃ e, decode word = .error e) ∨
    ∃ op, rowMatches (rowOf op) word = true ∧
      decode word = if (rowOf op).selThreeIllegal && selOf word == 3#2 then .error (.selThree (rowOf op).mnemonic)
        else .ok (buildInstr op word) := by
  by_cases hrow : ∃ op, rowMatches (rowOf op) word = true
  · obtain ⟨op, hop⟩ := hrow
    exact .inr ⟨op, hop, by simp [decode, opcodeOf_of_rowMatches hop, hop]⟩
  · have hnone : ∀ op, rowMatches (rowOf op) word = false := fun op => by
      simpa using fun h => hrow ⟨op, h⟩
    exact .inl ⟨hnone, .reservedBits _, by simp only [decode, hnone]; rfl⟩

/-! ## Decoding what was encoded (R72) -/

theorem buildInstr_encode (i : Instr) : buildInstr (opcodeOfInstr i) (encode i) = i := by
  cases i with
  | wbit bit => simp [opcodeOfInstr, buildInstr, bitOperand_eq, encode, aOf_packFields]
  | _ => simp [opcodeOfInstr, buildInstr, encode, selOf_packFields, wOf_packFields, cOf_packFields, bOf_packFields,
      aOf_packFields]

/-- R77 (b) refuses the word of a command exactly when the command is not legal. -/
theorem selThree_encode (i : Instr) :
    ((rowOf (opcodeOfInstr i)).selThreeIllegal && selOf (encode i) == 3#2) = !i.wf := by
  cases i with
  | setch sel | dsz sel => simp [opcodeOfInstr, rowOf, encode, selOf_packFields, Instr.wf, selLegal, bne]
  | dins sel _ | drd sel _ | rank sel _ =>
    simp [opcodeOfInstr, rowOf, encode, selOf_packFields, Instr.wf, selLegal, bne]
  | _ => rfl

/-- Decoding the word of a command gives the command back, or the SEL of 3 that makes it illegal. -/
theorem decode_encode (i : Instr) :
    decode (encode i) = if i.wf then .ok i else .error (.selThree (rowOf (opcodeOfInstr i)).mnemonic) := by
  have hop : opcodeOf (opOf (encode i)) = opcodeOfInstr i := opcodeOf_of_rowMatches (rowMatches_encode i)
  simp only [decode, hop, rowMatches_encode, selThree_encode, buildInstr_encode]
  cases i.wf <;> rfl

/-- Settles O1: the word matches the command's own row, and building from it reads every operand back. -/
theorem decodeOfEncodeIsTheCommand : Obligations.DecodeOfEncodeIsTheCommand := fun i hwf => by
  rw [decode_encode, if_pos hwf]

/-- Settles O2: the word matches the row it is decoded by, and the encoder's word of an illegal command does not decode. -/
theorem encodeOfDecodeIsTheWord : Obligations.EncodeOfDecodeIsTheWord := by
  intro word i hdecode
  have hword : encode i = word := by
    rcases decode_cases word with ⟨-, e, he⟩ | ⟨op, hrow, hop⟩
    · rw [he] at hdecode; cases hdecode
    · rw [hop] at hdecode
      split at hdecode <;> cases hdecode
      exact (rowMatches_iff op word).mp hrow
  refine ⟨hword, ?_⟩
  rw [← hword, decode_encode] at hdecode
  split at hdecode
  · assumption
  · cases hdecode

/-! ## Illegal words (R77) -/

theorem selThreeIllegal_iff (op : Opcode) :
    (rowOf op).selThreeIllegal = true ↔ op ∈ [Opcode.setch, .dins, .drd, .dsz, .rank] := by
  cases op <;> decide

/-- R77: a word is illegal when no row matches it, or when the row it matches does not allow its SEL of 3. -/
theorem decode_error_iff (word : CmdWord) :
    (∃ e, decode word = .error e) ↔ (∀ op, rowMatches (rowOf op) word = false) ∨
      ∃ op ∈ [Opcode.setch, .dins, .drd, .dsz, .rank], rowMatches (rowOf op) word = true ∧ selOf word = 3#2 := by
  rcases decode_cases word with ⟨hnone, herror⟩ | ⟨op, hrow, hdecode⟩
  · exact iff_of_true herror (.inl hnone)
  · have hone : (∃ op' ∈ [Opcode.setch, .dins, .drd, .dsz, .rank], rowMatches (rowOf op') word = true ∧
        selOf word = 3#2) ↔ (rowOf op).selThreeIllegal = true ∧ selOf word = 3#2 := by
      refine ⟨fun ⟨op', hop', hrow', hsel⟩ => ?_, fun ⟨hop, hsel⟩ => ⟨op, (selThreeIllegal_iff op).mp hop, hrow, hsel⟩⟩
      have hsame : op' = op := (opcodeOf_of_rowMatches hrow').symm.trans (opcodeOf_of_rowMatches hrow)
      exact ⟨(selThreeIllegal_iff op).mpr (hsame ▸ hop'), hsel⟩
    have hmatched : ¬ ∀ op, rowMatches (rowOf op) word = false := fun h => by simp [h op] at hrow
    rw [hone, or_iff_right hmatched, hdecode]
    split
    · rename_i hthree
      exact iff_of_true ⟨_, rfl⟩ (by simpa using hthree)
    · rename_i hbuilt
      exact iff_of_false (fun ⟨_, h⟩ => by cases h) (by simpa using hbuilt)

/-- The zero word is the only NOP. -/
theorem decode_eq_nop_iff (word : CmdWord) : decode word = .ok .nop ↔ word = 0#128 := by
  have hzero : encode .nop = 0#128 := rfl
  refine ⟨fun h => ?_, fun h => ?_⟩
  · rw [← (encodeOfDecodeIsTheWord word .nop h).1, hzero]
  · rw [h, ← hzero]; exact decodeOfEncodeIsTheCommand .nop rfl

/-! ## The byte form (R71) -/

theorem length_bytesOfWord (word : CmdWord) : (bytesOfWord word).length = 16 := by simp [bytesOfWord]

theorem getElem_bytesOfWord (word : CmdWord) (i : Nat) (h : i < (bytesOfWord word).length) :
    (bytesOfWord word)[i] = word.extractLsb' (8 * i) 8 := by
  simp [bytesOfWord]

/-- Byte `i` of the word that 16 bytes carry is the `i`-th of them. -/
theorem bytesOfWord_bytesValue {bs : List Byte} (hlength : bs.length = 16) :
    bytesOfWord (BitVec.ofNat 128 (bytesValue bs)) = bs := by
  refine List.ext_getElem (by rw [length_bytesOfWord, hlength]) fun i hi hi' => BitVec.eq_of_toNat_eq ?_
  have hvalue : bytesValue bs < 2 ^ 128 := by have := bytesValue_lt bs; rwa [hlength] at this
  rw [getElem_bytesOfWord, BitVec.extractLsb'_toNat, BitVec.toNat_ofNat, Nat.mod_eq_of_lt hvalue,
    Nat.shiftRight_eq_div_pow, pow_mul]
  exact bytesValue_byte bs i hi'

/-- Settles O4: a word and its 16 bytes determine each other, byte by byte. -/
theorem byteFormIsLittleEndian : Obligations.ByteFormIsLittleEndian := by
  refine ⟨fun word => ⟨length_bytesOfWord word, fun i hi => ?_, wordOfBytes_bytesOfWord word,
    decodeBytes_bytesOfWord word⟩, fun bs hlength => ?_, fun bs hlength => ?_⟩
  · rw [List.getElem?_eq_getElem (by rwa [length_bytesOfWord]), getElem_bytesOfWord]
  · exact ⟨_, if_pos hlength, bytesOfWord_bytesValue hlength⟩
  · rw [decodeBytes, wordOfBytes, if_neg hlength]

end Sys2Proof

namespace Sys2Proof.Machine

/-! ## What an illegal word does (R77, R184) -/

/-- What an illegal word does to a block that is not FAULTED (R77, R183). -/
theorem runIllegal_of_running {s : State} (hf : s.faulted = false) :
    runIllegal s = .next { s with faulted := true, faultCode := 1#3 } := by
  rw [runIllegal, unlessFaulted_of_running hf]; rfl

/-- A step that takes an illegal word. -/
theorem step_of_illegal {s : State} {word : CmdWord} {rest : List HostMove} {e : DecodeError} (hready : s.rstDone = true)
    (hinput : s.input = .cmd word :: rest) (hdecode : decode word = .error e) :
    step s = runIllegal { s with input := rest } := by
  simp only [step, advance, hinput, takeMove, runCommand, hready, hdecode, Bool.not_true, Bool.false_eq_true, if_false]

/-- Settles O3: OP names the one row a word can match, and only the word of NOP decodes to NOP. -/
theorem illegalWordsAreExactlyThese : Obligations.IllegalWordsAreExactlyThese := by
  refine ⟨decode_error_iff, fun word op op' hrow hrow' => ?_, decode_eq_nop_iff,
    fun s word rest e hready hf hinput hdecode => ?_⟩
  · exact (opcodeOf_of_rowMatches hrow).symm.trans (opcodeOf_of_rowMatches hrow')
  · rw [step_of_illegal hready hinput hdecode]
    exact runIllegal_of_running hf

/-- A term that is no legal command runs as its illegal word does (log 8). -/
theorem exec_of_not_wf {i : Instr} (hwf : i.wf = false) (s : State) : exec i s = runIllegal s := by
  have hthree : ∀ sel : BitVec 2, selLegal sel = false → sel = 3#2 := by decide
  cases i with
  | setch sel | dsz sel => cases hthree sel hwf; rfl
  | dins sel _ | drd sel _ | rank sel _ => cases hthree sel hwf; rfl
  | _ => cases hwf

/-- Settles O21: the term's word is illegal by R77 (b), and running the term is running an illegal word. -/
theorem selThreeIsIllegal : Obligations.SelThreeIsIllegal := by
  intro i s hwf
  rw [exec_of_not_wf hwf]
  exact ⟨⟨_, by rw [decode_encode, hwf]; rfl⟩, runIllegal_of_running, fun hf => unlessFaulted_of_faulted hf _⟩

/-- Settles O5: the four words that decode are those of their commands; the two others are illegal by R77 (b) and (a). -/
theorem wordsOfTheSpecDecode : Obligations.WordsOfTheSpecDecode :=
  ⟨decode_encode (.wbits 5#32 3#6), decode_encode (.dins 2#2 440#32), decode_encode (.scan 0#32 5#32 440#32),
    decode_encode (.rdst 1#2), decode_encode (.setch 3#2), by decide⟩

/-! ## The assembler (R80, R81) -/

/-- Whatever a line or a part of it assembles to is legal. -/
def AssemblesLegal (result : Option (List Instr)) : Prop := ∀ is, result = some is → ∀ i ∈ is, i.wf = true

theorem assemblesLegal_none : AssemblesLegal none := fun _ h => by cases h

theorem assemblesLegal_some {is : List Instr} (h : ∀ i ∈ is, i.wf = true) : AssemblesLegal (some is) := fun _ h' => by
  cases h'; exact h

/-! A SEL that is a field select or a channel is read from a name, and no name is that of 3. -/

theorem selLegal_of_channelNamed {cs : List Char} {ch : BitVec 2} (h : channelNamed cs = some ch) :
    selLegal ch = true := by
  unfold channelNamed at h
  split at h <;> cases h <;> rfl

theorem selLegal_of_fieldNamed {cs : List Char} {f : BitVec 2} (h : fieldNamed cs = some f) : selLegal f = true := by
  unfold fieldNamed at h
  split at h <;> cases h <;> rfl

/-! Operand lists. -/

theorem assemblesLegal_asm0 {i : Instr} (hi : i.wf = true) (ops : List (List Char)) : AssemblesLegal (asm0 i ops) := by
  unfold asm0
  split
  · exact assemblesLegal_some (by simpa using hi)
  · exact assemblesLegal_none

theorem assemblesLegal_asm1 {α : Type} {read : List Char → Option α} {make : α → List Instr}
    (h : ∀ a x, read a = some x → ∀ i ∈ make x, i.wf = true) (ops : List (List Char)) :
    AssemblesLegal (asm1 read make ops) := by
  unfold asm1
  split
  · rename_i a
    cases hread : read a with
    | none => exact assemblesLegal_none
    | some x => exact assemblesLegal_some (h a x hread)
  · exact assemblesLegal_none

theorem assemblesLegal_asm2 {α β : Type} {read : List Char → Option α} {read' : List Char → Option β}
    {make : α → β → Instr} (h : ∀ a x y, read a = some x → (make x y).wf = true) (ops : List (List Char)) :
    AssemblesLegal (asm2 read read' make ops) := by
  unfold asm2
  split
  · split
    · rename_i hx _
      exact assemblesLegal_some (by simpa using h _ _ _ hx)
    · exact assemblesLegal_none
  · exact assemblesLegal_none

theorem assemblesLegal_asm3 {make : Word → Word → Word → Instr} (h : ∀ x y z, (make x y z).wf = true)
    (ops : List (List Char)) : AssemblesLegal (asm3 make ops) := by
  unfold asm3
  split
  · split
    · exact assemblesLegal_some (by simpa using h _ _ _)
    · exact assemblesLegal_none
  · exact assemblesLegal_none

/-! Pseudo-instructions (R81). -/

theorem expandBegin_legal {ch : BitVec 2} (h : selLegal ch = true) : ∀ i ∈ expandBegin ch, i.wf = true := by
  simpa [expandBegin, Instr.wf] using h

theorem expandEncode_legal {ch : BitVec 2} (h : selLegal ch = true) (notes : List Note) :
    ∀ i ∈ expandEncode ch notes, i.wf = true := by
  intro i hi
  simp only [expandEncode, List.mem_append, List.mem_map, List.mem_singleton] at hi
  rcases hi with ((hbegin | ⟨note, -, rfl⟩) | rfl) | ⟨note, -, rfl⟩
  · exact expandBegin_legal h i hbegin
  · rfl
  · rfl
  · rfl

theorem assemblesLegal_asmEncode (tokens : List Token) : AssemblesLegal (asmEncode tokens) := by
  unfold asmEncode
  split
  · split
    · rename_i hch _
      exact assemblesLegal_some (expandEncode_legal (selLegal_of_channelNamed hch) _)
    · exact assemblesLegal_none
  · exact assemblesLegal_none

/-- A line with a plain operand list, one case for each mnemonic: SEL comes from a name wherever 3 would be illegal. -/
theorem assemblesLegal_asmPlain (mnemonic : String) (ops : List (List Char)) :
    AssemblesLegal (asmPlain mnemonic ops) := by
  have one : ∀ {j : Instr}, j.wf = true → ∀ i ∈ [j], i.wf = true := fun hj i hi => List.mem_singleton.mp hi ▸ hj
  unfold asmPlain
  split
  · exact assemblesLegal_asm0 (i := .nop) rfl ops
  · exact assemblesLegal_asm0 (i := .clrs) rfl ops
  · exact assemblesLegal_asm1 (make := fun b => [.wbit b]) (fun _ _ _ => one rfl) ops
  · exact assemblesLegal_asm2 (make := .wbits) (fun _ _ _ _ => rfl) ops
  · exact assemblesLegal_asm1 (make := fun ch => [.setch ch]) (fun _ _ hch => one (selLegal_of_channelNamed hch)) ops
  · exact assemblesLegal_asm2 (make := .dins) (fun _ _ _ hf => selLegal_of_fieldNamed hf) ops
  · exact assemblesLegal_asm0 (i := .dclr) rfl ops
  · exact assemblesLegal_asm2 (make := .drd) (fun _ _ _ hf => selLegal_of_fieldNamed hf) ops
  · exact assemblesLegal_asm1 (make := fun f => [.dsz f]) (fun _ _ hf => one (selLegal_of_fieldNamed hf)) ops
  · exact assemblesLegal_asm2 (make := .rank) (fun _ _ _ hf => selLegal_of_fieldNamed hf) ops
  · exact assemblesLegal_asm3 (make := .scan) (fun _ _ _ => rfl) ops
  · exact assemblesLegal_asm0 (i := .rewind) rfl ops
  · exact assemblesLegal_asm3 (make := .emit) (fun _ _ _ => rfl) ops
  · exact assemblesLegal_asm3 (make := .emitr) (fun _ _ _ => rfl) ops
  · exact assemblesLegal_asm1 (make := fun a => [.rdb a]) (fun _ _ _ => one rfl) ops
  · exact assemblesLegal_asm1 (make := fun sel => [.rdst sel]) (fun _ _ _ => one rfl) ops
  · exact assemblesLegal_asm1 (make := expandWbyte) (fun _ _ _ => one rfl) ops
  · exact assemblesLegal_asm1 (make := expandBegin) (fun _ _ hch => expandBegin_legal (selLegal_of_channelNamed hch)) ops
  · intro is his
    obtain ⟨_, -, rfl⟩ := Option.map_eq_some_iff.mp his
    exact one (j := .rewind) rfl
  · exact assemblesLegal_asm1 (make := expandWzero) (fun _ _ _ => one rfl) ops
  · exact assemblesLegal_none

theorem assemblesLegal_assembleLine (line : List Char) : AssemblesLegal (assembleLine line) := by
  unfold assembleLine
  split
  · exact assemblesLegal_some (by simp)
  · split
    · exact assemblesLegal_asmEncode _
    · split
      · exact assemblesLegal_asmPlain _ _
      · exact assemblesLegal_none
  · exact assemblesLegal_none

/-- Settles O6: what a line assembles to is legal, and the word of a legal command decodes to it. -/
theorem assemblerEmitsOnlyLegalWords : Obligations.AssemblerEmitsOnlyLegalWords := by
  intro line is hline i hi
  have hwf := assemblesLegal_assembleLine line is hline i hi
  exact ⟨hwf, decodeOfEncodeIsTheCommand i hwf⟩

end Sys2Proof.Machine
end

section
/-! PROOFS. 40_bitwriter.md: CLRS, the four commands that write stream bits, and the laws of the field write. Each of
the four checks the room in BUF before its first bit, so each is the same gate (`unlessFaulted`, `bitsFit`) before a
write of the state; the laws hold of the writes up to OVF. -/

namespace Sys2Proof.Machine

/-! ## CLRS (R106) -/

/-- Settles O26: while not FAULTED the command is `clearStream`, which empties BUF down to one zero byte. -/
theorem clrsClearsTheStreamOnly : Obligations.ClrsClearsTheStreamOnly := by
  refine fun s => ⟨fun hf => ?_, fun hf => unlessFaulted_of_faulted hf _⟩
  have hexec : exec .clrs s = .next (clearStream s) := unlessFaulted_of_running hf _
  exact ⟨clearStream s, hexec, rfl, rfl, rfl, rfl, fun _ => rfl, rfl⟩

/-! ## The check of the room in BUF (R102) -/

/-- A write of `n` bits that fits in BUF_CAP is done. -/
theorem gatedWrite_of_fits {s : State} {n : Nat} (hf : s.faulted = false)
    (hfit : s.len + (s.bitOffset.toNat + n) / 8 ≤ s.cfg.bufCap) (t : State) :
    unlessFaulted s (if bitsFit s n then .next t else raise .bufFull s) = .next t := by
  rw [unlessFaulted_of_running hf, if_pos ((bitsFit_iff s n).mpr hfit)]

/-- A write of `n` bits that does not fit in BUF_CAP raises BUF_FULL and writes none of them. -/
theorem gatedWrite_of_full {s : State} {n : Nat} (hf : s.faulted = false)
    (hfull : s.cfg.bufCap < s.len + (s.bitOffset.toNat + n) / 8) (t : State) :
    unlessFaulted s (if bitsFit s n then .next t else raise .bufFull s) =
      .next { s with faulted := true, faultCode := 6#3 } := by
  rw [unlessFaulted_of_running hf, if_neg fun hfit => Nat.not_le.mpr hfull ((bitsFit_iff s n).mp hfit)]
  rfl

/-! ## WBIT (R100, R104) -/

/-- One more bit fits unless it fills the last byte BUF may hold. -/
theorem oneBitFits {s : State} (hcap : s.len ≤ s.cfg.bufCap) (hroom : ¬ (s.bitOffset = 7#3 ∧ s.len = s.cfg.bufCap)) :
    s.len + (s.bitOffset.toNat + 1) / 8 ≤ s.cfg.bufCap := by
  have hoff := bitOffset_lt s
  by_cases h7 : s.bitOffset = 7#3
  · have hlen : s.len ≠ s.cfg.bufCap := fun hlen => hroom ⟨h7, hlen⟩
    omega
  · have hne : s.bitOffset.toNat ≠ 7 := fun h => h7 (BitVec.eq_of_toNat_eq h)
    omega

/-- Settles O22: a WBIT that fits is one WriteBit, which says where the bit goes. -/
theorem wbitWritesOneStreamBit : Obligations.WbitWritesOneStreamBit := by
  intro s bit hs hf hroom
  have hends := streamEnds_of_stateInv hs
  obtain ⟨-, ⟨-, -, hcap, -⟩, -⟩ := hs
  refine ⟨writeBit (bit == 1#1) s, gatedWrite_of_fits hf (oneBitFits hcap hroom) _, writeBit_tb _ s, ?_,
    (appendsBits_writeBit _ s).bits hends, fun k hk _ => (writeBit_streamEnds hends _).zeros k hk, writeBit_frame _ s,
    fun a => memRead_outside fun k hk => ?_⟩
  · rw [writeBit_streamBit hends, if_pos rfl]
  · rw [writeBit_streamBit hends, if_neg fun hkt => hk (by omega)]

/-! ## The laws of the field write (R110, R111) -/

theorem SameButOvf.symm {s s' : State} (h : SameButOvf s s') : SameButOvf s' s := by
  obtain ⟨_, rfl⟩ := h
  exact ⟨s.ovf, rfl⟩

theorem SameButOvf.trans {s s' s'' : State} (h : SameButOvf s s') (h' : SameButOvf s' s'') : SameButOvf s s'' := by
  obtain ⟨_, rfl⟩ := h
  obtain ⟨b, rfl⟩ := h'
  exact ⟨b, rfl⟩

/-- OVF is no part of BUF, LEN or BIT_OFFSET. -/
theorem SameButOvf.stream_eq {s s' : State} (h : SameButOvf s s') :
    output s' = output s ∧ s'.len = s.len ∧ s'.bitOffset = s.bitOffset := by
  obtain ⟨_, rfl⟩ := h
  exact ⟨rfl, rfl, rfl⟩

/-- A field write is WriteBits, OVF aside (R101, R103). -/
theorem writeBits_sameButOvf_writeField (v w : Nat) (s : State) : SameButOvf (writeBits v w s) (writeField v w s) :=
  ⟨_, rfl⟩

/-- Truncation: WriteBits writes the low bits of its value. -/
theorem writeBits_mod (v w : Nat) (s : State) : writeBits (v % 2 ^ w) w s = writeBits v w s :=
  writeBitsFrom_congr (fun j _ hj => by simp [Nat.testBit_mod_two_pow, show j < w by omega]) s

/-- The bits of a value from bit `m` on are the bits of the value shifted right by `m`. -/
theorem writeBitsFrom_shiftRight (v i m n : Nat) (s : State) :
    writeBitsFrom v (i + m) n s = writeBitsFrom (v >>> m) i n s := by
  induction n generalizing i s with
  | zero => rfl
  | succ n ih => rw [writeBitsFrom, writeBitsFrom, Nat.testBit_shiftRight, Nat.add_comm m, Nat.add_right_comm, ih]

/-- Concatenation: a value with another above its low `m` bits is written as the one, then the other. -/
theorem writeBits_concat (v v' m n : Nat) (s : State) :
    writeBits (v % 2 ^ m + v' % 2 ^ n * 2 ^ m) (m + n) s = writeBits v' n (writeBits v m s) := by
  have hlow : v % 2 ^ m < 2 ^ m := Nat.mod_lt _ (by positivity)
  have hmod : (v % 2 ^ m + v' % 2 ^ n * 2 ^ m) % 2 ^ m = v % 2 ^ m := by
    rw [Nat.add_mul_mod_self_right, Nat.mod_mod]
  have hshift : (v % 2 ^ m + v' % 2 ^ n * 2 ^ m) >>> m = v' % 2 ^ n := by
    rw [Nat.shiftRight_eq_div_pow, Nat.add_mul_div_right _ _ (by positivity), Nat.div_eq_of_lt hlow, Nat.zero_add]
  calc writeBits (v % 2 ^ m + v' % 2 ^ n * 2 ^ m) (m + n) s
      = writeBits ((v % 2 ^ m + v' % 2 ^ n * 2 ^ m) >>> m) n
          (writeBits (v % 2 ^ m + v' % 2 ^ n * 2 ^ m) m s) := by
        rw [writeBits, writeBitsFrom_append, writeBitsFrom_shiftRight]; rfl
    _ = writeBits v' n (writeBits v m s) := by
        rw [hshift, writeBits_mod, ← writeBits_mod _ m, hmod, writeBits_mod]

theorem writeField_mod_sameButOvf (v w : Nat) (s : State) :
    SameButOvf (writeField (v % 2 ^ w) w s) (writeField v w s) := by
  have hbits := writeBits_sameButOvf_writeField (v % 2 ^ w) w s
  rw [writeBits_mod] at hbits
  exact hbits.symm.trans (writeBits_sameButOvf_writeField v w s)

theorem writeField_concat_sameButOvf (v v' m n : Nat) (s : State) :
    SameButOvf (writeField v' n (writeField v m s)) (writeField (v % 2 ^ m + v' % 2 ^ n * 2 ^ m) (m + n) s) := by
  have hfirst : SameButOvf (writeBits v' n (writeBits v m s)) (writeBits v' n (writeField v m s)) :=
    writeBitsFrom_sameButOvf (writeBits_sameButOvf_writeField v m s) v' 0 n
  have hboth := writeBits_sameButOvf_writeField (v % 2 ^ m + v' % 2 ^ n * 2 ^ m) (m + n) s
  rw [writeBits_concat] at hboth
  exact (hfirst.trans (writeBits_sameButOvf_writeField v' n _)).symm.trans hboth

/-- Settles O27: both commands check the same room, and their writes differ in OVF at most. -/
theorem truncationLaw : Obligations.TruncationLaw := by
  intro s v w
  have hvalue : (BitVec.ofNat 32 (v.toNat % 2 ^ w.toNat)).toNat = v.toNat % 2 ^ w.toNat :=
    Nat.mod_eq_of_lt (Nat.lt_of_le_of_lt (Nat.mod_le _ _) v.isLt)
  have hsame : SameButOvf s s := ⟨s.ovf, rfl⟩
  have hwrite := writeField_mod_sameButOvf v.toNat w.toNat s
  rw [← hvalue] at hwrite
  obtain ⟨t', t, ht', ht, h⟩ :=
    agreeButOvf_unlessFaulted hsame (agreeButOvf_ite (c := bitsFit s w.toNat = true) (agreeButOvf_next hwrite)
      (agreeButOvf_raise hsame .bufFull))
  obtain ⟨houtput, hlen, hoffset⟩ := h.stream_eq
  exact ⟨t, t', ht, ht', houtput, hlen, hoffset, (sameButOvf_iff t' t).mp h⟩

/-- The room `n` bits need after a field of width `w` is the room `w + n` bits need before it. -/
theorem len_after_writeField (v w n : Nat) (s : State) :
    (writeField v w s).len + ((writeField v w s).bitOffset.toNat + n) / 8 =
      s.len + (s.bitOffset.toNat + (w + n)) / 8 := by
  have htb : (writeBits 0 n (writeField v w s)).tb = s.tb + (w + n) := by
    rw [writeBits_tb, writeField_tb, Nat.add_assoc]
  rw [← len_after (writeBits_tb 0 n _), len_after htb]

theorem exec_wbits_of_fits {s : State} (hf : s.faulted = false) (v : Word) (w : BitVec 6)
    (hfit : s.len + (s.bitOffset.toNat + w.toNat) / 8 ≤ s.cfg.bufCap) :
    exec (.wbits v w) s = .next (writeField v.toNat w.toNat s) :=
  gatedWrite_of_fits hf hfit _

/-- Settles O28: the room for both fields is room for each, and the writes differ in OVF at most. -/
theorem concatenationLaw : Obligations.ConcatenationLaw := by
  intro s v1 v2 w1 w2 hf hwidth hvalue hfit
  have hwidth' : (BitVec.ofNat 6 (w1.toNat + w2.toNat)).toNat = w1.toNat + w2.toNat :=
    Nat.mod_eq_of_lt (Nat.lt_succ_of_le hwidth)
  have hfirst : exec (.wbits v1 w1) s = .next (writeField v1.toNat w1.toNat s) :=
    exec_wbits_of_fits hf v1 w1 (by omega)
  have hsecond := exec_wbits_of_fits (s := writeField v1.toNat w1.toNat s) (by rw [writeField_frame]; exact hf) v2 w2
    (by rw [len_after_writeField, writeField_frame]; exact hfit)
  have hboth := exec_wbits_of_fits hf
    (BitVec.ofNat 32 (v1.toNat % 2 ^ w1.toNat + v2.toNat % 2 ^ w2.toNat * 2 ^ w1.toNat))
    (BitVec.ofNat 6 (w1.toNat + w2.toNat)) (by rw [hwidth']; exact hfit)
  rw [hwidth', BitVec.toNat_ofNat, Nat.mod_eq_of_lt hvalue] at hboth
  have h := writeField_concat_sameButOvf v1.toNat v2.toNat w1.toNat w2.toNat s
  obtain ⟨houtput, hlen, hoffset⟩ := h.stream_eq
  exact ⟨_, _, _, hfirst, hsecond, hboth, houtput, hlen, hoffset, (sameButOvf_iff _ _).mp h⟩

/-! ## The ranks of a note (R140, R147, R148) -/

/-- The field writes of a note: the rank of each field of the channel, in the field's width, in order. -/
def writeRanks (ch : BitVec 2) (r : DictField → Nat) (s : State) : State :=
  writeFields ((chanFields ch).map fun fw => (r fw.1, fw.2)) s

theorem writeRanks_frame (ch : BitVec 2) (r : DictField → Nat) (s : State) :
    writeRanks ch r s =
      { s with mem := (writeRanks ch r s).mem, byteIndex := (writeRanks ch r s).byteIndex,
               bitOffset := (writeRanks ch r s).bitOffset, ovf := (writeRanks ch r s).ovf } :=
  writeFields_frame _ s

theorem appendsBits_writeRanks (ch : BitVec 2) (r : DictField → Nat) (s : State) :
    AppendsBits (bitsPerNote ch) s (writeRanks ch r s) := appendsBits_noteRanks ch r s

/-- Only the ranks of the channel's own fields are written (R143). -/
theorem writeRanks_congr {ch : BitVec 2} {r r' : DictField → Nat} (h : ∀ f, usesField ch f = true → r f = r' f)
    (s : State) : writeRanks ch r s = writeRanks ch r' s := by
  have hmap : ((chanFields ch).map fun fw => (r fw.1, fw.2)) = (chanFields ch).map fun fw => (r' fw.1, fw.2) :=
    List.map_congr_left fun fw hfw => by rw [h fw.1 ((usesField_iff ch fw.1).mpr ⟨fw.2, hfw⟩)]
  rw [writeRanks, hmap, writeRanks]

/-- OVF is set when a rank is too wide for its field, and never cleared (R103, R151). -/
theorem writeRanks_ovf (ch : BitVec 2) (r : DictField → Nat) (s : State) :
    (writeRanks ch r s).ovf = true ↔ s.ovf = true ∨ ∃ f w, (f, w) ∈ chanFields ch ∧ 2 ^ w ≤ r f := by
  simp only [writeRanks, writeFields_ovf, Bool.or_eq_true, List.any_map, List.any_eq_true, Function.comp_apply,
    truncates_iff, Prod.exists]

/-- The stream bits that a list of field writes appends, read back in order. -/
theorem streamSlice_writeFields {s : State} (h : StreamEnds s) (fields : List (Nat × Nat)) :
    streamSlice (writeFields fields s) s.tb (totalWidth fields) = allFieldBits fields := by
  refine List.ext_getElem (by simp [streamSlice, length_allFieldBits]) fun i _ hi => ?_
  simp only [streamSlice, List.getElem_map, List.getElem_range]
  rw [writeFields_streamBit h, if_pos (Nat.le_add_right _ _), Nat.add_sub_cancel_left, List.getElem?_eq_getElem hi,
    Option.getD_some]

/-- The note's bits are its ranks in the channel's field widths, in field order (R149). -/
theorem streamSlice_writeRanks {s : State} (h : StreamEnds s) (ch : BitVec 2) (r : DictField → Nat) :
    streamSlice (writeRanks ch r s) s.tb (bitsPerNote ch) =
      (chanFields ch).flatMap fun fw => fieldBits (r fw.1) fw.2 := by
  have hwidth : totalWidth ((chanFields ch).map fun fw => (r fw.1, fw.2)) = bitsPerNote ch := totalWidth_map _ r
  rw [writeRanks, ← hwidth, streamSlice_writeFields h, allFieldBits, List.flatMap_map]

/-- A write that appends bits changes only the bytes those bits are in (R52). -/
theorem AppendsBits.memRead_outside {n : Nat} {s t : State} (h : AppendsBits n s t) (hs : StreamEnds s) {a : Nat}
    (ha : ¬ (s.byteIndex ≤ a ∧ a ≤ s.byteIndex + (s.bitOffset.toNat + n) / 8)) :
    memRead t.mem a = memRead s.mem a := by
  refine Machine.memRead_outside (n := n) (fun k hk => ?_) ha
  by_cases hlow : k < s.tb
  · exact h.bits hs k hlow
  · have htb := h.tb
    rw [(h.ends hs).zeros k (by omega), hs.zeros k (by omega)]

/-! ## EMITR (R148) -/

/-- EMITR on a channel: the check of the room, then the given ranks. -/
theorem exec_emitr_of_channel {s : State} (hch : s.chan ≠ 3#2) (a b c : Word) :
    exec (.emitr a b c) s =
      unlessFaulted s (if bitsFit s (bitsPerNote s.chan)
        then .next (writeRanks s.chan (fun f => (byField a b c f).toNat) s) else raise .bufFull s) := by
  have hchannel : s.chan ≠ chanNone := hch
  rw [exec, execEmitr, if_neg hchannel]
  rfl

/-- Settles O49: EMITR that fits writes its operands as ranks and touches nothing but the stream and OVF. -/
theorem emitrWritesTheGivenRanks : Obligations.EmitrWritesTheGivenRanks := by
  intro s a b c hs hf hch hfit
  have hends := streamEnds_of_stateInv hs
  have happ := appendsBits_writeRanks s.chan (fun f => (byField a b c f).toNat) s
  exact ⟨_, (exec_emitr_of_channel hch a b c).trans (gatedWrite_of_fits hf hfit _), happ.tb,
    streamSlice_writeRanks hends _ _, happ.bits hends, writeRanks_ovf _ _ s, writeRanks_frame _ _ s,
    fun _ => happ.memRead_outside hends⟩

/-! ## EMIT (R147) -/

/-- EMIT past its first checks (a channel, the onset's order, the lookups): the check of the room, then the ranks. -/
theorem exec_emit_of_lookups {s : State} {onset duration pitch : Word} (hch : s.chan ≠ 3#2)
    (honset : s.prevOnset ≤ onset)
    (hmem : ∀ f, usesField s.chan f = true → byField (onset - s.prevOnset) duration pitch f ∈ s.dict f) :
    exec (.emit onset duration pitch) s =
      unlessFaulted s (if bitsFit s (bitsPerNote s.chan)
        then .next
          { writeRanks s.chan (fun f => countBelow (byField (onset - s.prevOnset) duration pitch f) (s.dict f)) s with
            prevOnset := onset }
        else raise .bufFull s) := by
  have hchannel : s.chan ≠ chanNone := hch
  have hdelta : nextDelta onset s = some (onset - s.prevOnset) := if_neg (BitVec.not_lt.mpr honset)
  rw [exec, execEmit, if_neg hchannel, hdelta]
  rcases lookupRanks_cases (chanFields s.chan) (byField (onset - s.prevOnset) duration pitch) s with
    ⟨-, hranks⟩ | ⟨⟨f, w, hf, hmiss⟩, -⟩
  · simp only [hranks]
    rfl
  · exact absurd (hmem f ((usesField_iff s.chan f).mpr ⟨w, hf⟩)) hmiss

/-- Settles O48: EMIT that fits writes the ranks its lookups gave, the values' indices in their dictionaries. -/
theorem emitWritesTheRanks : Obligations.EmitWritesTheRanks := by
  intro s onset duration pitch hs hf hch honset hmem hfit
  have hends := streamEnds_of_stateInv hs
  obtain ⟨-, -, hdict, -⟩ := (stateInv_iff s).mp hs
  have hrank : ∀ f, usesField s.chan f = true →
      countBelow (byField (onset - s.prevOnset) duration pitch f) (s.dict f) =
        (s.dict f).idxOf (byField (onset - s.prevOnset) duration pitch f) :=
    fun f hused => countBelow_eq_idxOf (hdict f).1 (hmem f hused)
  have hexec := (exec_emit_of_lookups hch honset hmem).trans (gatedWrite_of_fits hf hfit _)
  rw [writeRanks_congr hrank] at hexec
  have happ := appendsBits_writeRanks s.chan
    (fun f => (s.dict f).idxOf (byField (onset - s.prevOnset) duration pitch f)) s
  refine ⟨_, hexec, happ.tb, streamSlice_writeRanks hends _ _, happ.bits hends, writeRanks_ovf _ _ s, rfl, ?_,
    fun _ => happ.memRead_outside hends⟩
  rw [writeRanks_frame]

/-! ## BUF_FULL (R102) -/

/-- Settles O25: each of the four commands reaches the check of the room with nothing written. -/
theorem writesThatDoNotFitRaiseBufFull : Obligations.WritesThatDoNotFitRaiseBufFull := by
  refine fun s hf => ⟨fun _ hfull => gatedWrite_of_full hf hfull _, fun _ _ hfull => gatedWrite_of_full hf hfull _,
    fun _ _ _ hch hfull => ?_, fun _ _ _ hch honset hmem hfull => ?_⟩
  · rw [exec_emitr_of_channel hch]
    exact gatedWrite_of_full hf hfull _
  · rw [exec_emit_of_lookups hch honset hmem]
    exact gatedWrite_of_full hf hfull _

end Sys2Proof.Machine
end

section
/-! PROOFS. 41_dictionary.md: the sorted set that insertions build, DINS, DCLR and the reads of a dictionary, and SCAN's
insertions. A dictionary in ascending order is known by its members, and the rank of a member is its index. -/

namespace Sys2Proof.Machine

/-! ## The sorted set (R120, R121) -/

theorem mem_sortedDistinct (vs : List Word) (x : Word) : x ∈ sortedDistinct vs ↔ x ∈ vs := by
  rw [sortedDistinct, List.mem_mergeSort, List.mem_dedup]

/-- Sorting gives a weak order, and the values are distinct. -/
theorem sortedDistinct_ascending (vs : List Word) : (sortedDistinct vs).Pairwise (· < ·) := by
  have hsorted : (sortedDistinct vs).Pairwise (· ≤ ·) := List.pairwise_mergeSort' (· ≤ ·) vs.dedup
  have hdistinct : (sortedDistinct vs).Nodup := (List.mergeSort_perm _ _).nodup_iff.mpr vs.nodup_dedup
  exact (hsorted.and hdistinct).imp fun ⟨hle, hne⟩ => BitVec.lt_of_le_ne hle hne

/-- An ascending list is the sorted set of any list with the same members. -/
theorem eq_sortedDistinct {d vs : List Word} (hd : d.Pairwise (· < ·)) (hmem : ∀ x, x ∈ d ↔ x ∈ vs) :
    d = sortedDistinct vs :=
  hd.eq_of_mem_iff (sortedDistinct_ascending vs) fun x => (hmem x).trans (mem_sortedDistinct vs x).symm

/-! ## DictInsert (R121) -/

/-- Inserting a new value raises by one the rank of every value above it, and no other rank. -/
theorem countBelow_dictInsert {v : Word} {d : List Word} (hv : v ∉ d) (x : Word) :
    countBelow x (dictInsert v d) = countBelow x d + if v < x then 1 else 0 := by
  have hperm : (dictInsert v d).Perm (v :: d) := by
    rw [dictInsert_of_not_mem hv]
    exact List.perm_middle.trans (.of_eq (by rw [List.take_append_drop]))
  rw [← countBelow_cons]
  exact hperm.countP_eq _

/-- An entry above a new value moves up by one place. -/
theorem idxOf_dictInsert_of_gt {v x : Word} {d : List Word} (hd : d.Pairwise (· < ·)) (hv : v ∉ d) (hx : x ∈ d)
    (hlt : v < x) : (dictInsert v d).idxOf x = d.idxOf x + 1 :=
  calc (dictInsert v d).idxOf x
      = countBelow x (dictInsert v d) :=
        (countBelow_eq_idxOf (dictInsert_ascending hd v) ((mem_dictInsert v x d).mpr (.inr hx))).symm
    _ = countBelow x d + 1 := by rw [countBelow_dictInsert hv, if_pos hlt]
    _ = d.idxOf x + 1 := by rw [countBelow_eq_idxOf hd hx]

/-- DictInsert of each value of a list, in order. -/
def dictInsertAll (vs d : List Word) : List Word := vs.foldl (fun d v => dictInsert v d) d

theorem mem_dictInsertAll (vs d : List Word) (x : Word) : x ∈ dictInsertAll vs d ↔ x ∈ vs ∨ x ∈ d := by
  induction vs generalizing d with
  | nil => simp [dictInsertAll]
  | cons v vs ih =>
    have htail := ih (dictInsert v d)
    rw [mem_dictInsert] at htail
    rw [List.mem_cons, or_assoc, or_left_comm]
    exact htail

theorem dictInsertAll_ascending {d : List Word} (hd : d.Pairwise (· < ·)) (vs : List Word) :
    (dictInsertAll vs d).Pairwise (· < ·) := by
  induction vs generalizing d with
  | nil => exact hd
  | cons v vs ih => exact ih (dictInsert_ascending hd v)

/-- Insertions into an empty dictionary build the sorted set, whatever their order and repetition (R128). -/
theorem dictInsertAll_nil (vs : List Word) : dictInsertAll vs [] = sortedDistinct vs :=
  eq_sortedDistinct (dictInsertAll_ascending .nil vs) fun x => by simp [mem_dictInsertAll]

/-! ## DINS (R123) -/

/-- DINS while not FAULTED: the check of the room, then the insertion. -/
theorem exec_dins {s : State} (hf : s.faulted = false) (f : DictField) (v : Word) :
    exec (.dins (selOfField f) v) s = if lacksRoom s f v then raise .dictFull s else .next (insertValue f v s) := by
  rw [exec, execDins, withField_selOfField, unlessFaulted_of_running hf]

theorem exec_dins_of_room {s : State} {f : DictField} {v : Word} (hf : s.faulted = false)
    (hroom : v ∈ s.dict f ∨ (s.dict f).length ≠ s.cfg.dictCap) :
    exec (.dins (selOfField f) v) s = .next (insertValue f v s) := by
  rw [exec_dins hf, if_neg]
  rw [lacksRoom_iff]
  exact fun ⟨hnew, hfull⟩ => hroom.elim hnew fun hne => hne hfull

/-- Settles O30: DINS with room is one DictInsert, whose ranks are the indices of its entries. -/
theorem dinsInsertsInOrder : Obligations.DinsInsertsInOrder := by
  intro s f v hf hd hroom
  refine ⟨insertValue f v s, exec_dins_of_room hf hroom, ?_, ?_, ?_, ?_, fun g hg => insertValue_dict_other hg v s,
    insertValue_frame f v s⟩ <;> rw [insertValue_dict_same]
  · exact fun x => mem_dictInsert v x _
  · exact dictInsert_ascending hd v
  · exact dictInsert_of_mem
  · exact fun hnew x hx hlt => idxOf_dictInsert_of_gt hd hnew hx hlt

/-- Settles O31: the check of the room comes before the insertion. -/
theorem dinsIntoAFullDictionaryFaults : Obligations.DinsIntoAFullDictionaryFaults := by
  intro s f v hf hnew hfull
  rw [exec_dins hf, if_pos ((lacksRoom_iff s f v).mpr ⟨hnew, hfull⟩)]
  rfl

/-! ## A sequence of insertions (R128) -/

theorem setDict_setDict (f : DictField) (d d' : List Word) (s : State) :
    setDict f d' (setDict f d s) = setDict f d' s := by
  cases f <;> rfl

theorem setDict_self (f : DictField) (s : State) : setDict f (s.dict f) s = s := by
  cases f <;> rfl

/-- A value of a list of at most DICT_CAP values, more than the dictionary's own, has room. -/
theorem room_of_subset {d u : List Word} {cap : Nat} {v : Word} (hd : d.Nodup) (hdu : d ⊆ u) (hv : v ∈ u)
    (hu : u.length ≤ cap) : v ∈ d ∨ d.length ≠ cap := by
  by_cases hmem : v ∈ d
  · exact .inl hmem
  · have hlength : (v :: d).length ≤ u.length :=
      (List.Nodup.subperm (hd.cons hmem) (List.cons_subset.mpr ⟨hv, hdu⟩)).length_le
    rw [List.length_cons] at hlength
    exact .inr (by omega)

/-- DINS of each value of a list inserts them all, when the dictionary's entries and the values are all among at most
DICT_CAP values. -/
theorem execAll_dins {s : State} {f : DictField} {vs u : List Word} (hf : s.faulted = false)
    (hd : (s.dict f).Pairwise (· < ·)) (hdu : s.dict f ⊆ u) (hvs : vs ⊆ u) (hu : u.length ≤ s.cfg.dictCap) :
    execAll (vs.map fun v => .dins (selOfField f) v) s = .next (setDict f (dictInsertAll vs (s.dict f)) s) := by
  induction vs generalizing s with
  | nil => exact congrArg Host.Outcome.next (setDict_self f s).symm
  | cons v vs ih =>
    obtain ⟨hv, hvs⟩ := List.cons_subset.mp hvs
    have hinsert : exec (.dins (selOfField f) v) s = .next (setDict f (dictInsert v (s.dict f)) s) :=
      exec_dins_of_room hf (room_of_subset (ascending_nodup hd) hdu hv hu)
    rw [List.map_cons, execAll, hinsert]
    have hrest := ih (s := setDict f (dictInsert v (s.dict f)) s)
    rw [setDict_faulted, setDict_cfg, setDict_dict_same, setDict_setDict] at hrest
    refine hrest hf (dictInsert_ascending hd v) (fun x hx => ?_) hvs hu
    rcases (mem_dictInsert v x _).mp hx with rfl | hx
    · exact hv
    · exact hdu hx

/-- Settles O37: the distinct values are the list that every insertion's value is in. -/
theorem insertionsBuildTheSortedSet : Obligations.InsertionsBuildTheSortedSet := by
  intro s f vs hf hempty hfit
  have hexec := execAll_dins (s := s) (f := f) hf (by rw [hempty]; exact .nil) (by rw [hempty]; exact List.nil_subset _)
    (List.subset_dedup vs) hfit
  rw [hempty, dictInsertAll_nil] at hexec
  exact ⟨_, hexec, setDict_dict_same f _ s, fun g hg => setDict_dict_other hg _ s, setDict_frame f _ s⟩

/-! ## DCLR (R124) -/

/-- Settles O32: while not FAULTED the command is `clearDicts`. -/
theorem dclrEmptiesTheDictionaries : Obligations.DclrEmptiesTheDictionaries := by
  intro s hf
  have hexec : exec .dclr s = .next (clearDicts s) := unlessFaulted_of_running hf _
  exact ⟨clearDicts s, hexec, fun f => by cases f <;> rfl, rfl⟩

/-! ## DRD (R125) -/

/-- DRD answers what the dictionary holds at the index, if anything. -/
theorem exec_drd (f : DictField) (k : Word) (s : State) :
    exec (.drd (selOfField f) k) s =
      .next (((s.dict f)[k.toNat]?).elim (respondNothing s) fun v => respond v s) := by
  rw [exec, execDrd, withField_selOfField]
  cases (s.dict f)[k.toNat]? <;> rfl

/-- Settles O33: an index is in range exactly when there is an entry to answer. -/
theorem drdReadsAnEntry : Obligations.DrdReadsAnEntry := by
  refine fun s f k => ⟨fun hin => ?_, fun hout => ?_⟩
  · rw [exec_drd, List.getElem?_eq_getElem hin]; rfl
  · rw [exec_drd, List.getElem?_eq_none hout]; rfl

/-! ## DSZ (R126) -/

/-- A number up to the bound R8 puts on DICT_CAP is read whole. -/
theorem toNat_ofNat_of_le_cap {n cap : Nat} (hn : n ≤ cap) (hcap : cap ≤ 2 ^ 32 - 1) :
    (BitVec.ofNat 32 n).toNat = n :=
  Nat.mod_eq_of_lt (by omega)

/-- Settles O34: the size is the low 32 bits of itself. -/
theorem dszReadsTheSize : Obligations.DszReadsTheSize := by
  intro s f hsize hcap
  have hexec : exec (.dsz (selOfField f)) s = .next (respond (BitVec.ofNat 32 (s.dict f).length) s) := by
    rw [exec, execDsz, withField_selOfField]
  exact ⟨_, toNat_ofNat_of_le_cap hsize hcap, hexec⟩

/-! ## RANK (R127, R129) -/

/-- RANK answers what DictRank finds, if anything. -/
theorem exec_rank (f : DictField) (v : Word) (s : State) :
    exec (.rank (selOfField f) v) s =
      .next ((dictRank v (s.dict f)).elim (respondNothing s) fun k => respond (BitVec.ofNat 32 k) s) := by
  rw [exec, execRank, withField_selOfField]
  cases dictRank v (s.dict f) <;> rfl

/-- A value stands at one index of an ascending list at most. -/
theorem index_unique {d : List Word} (hd : d.Pairwise (· < ·)) {v : Word} {j k : Nat} (hj : d[j]? = some v)
    (hk : d[k]? = some v) : k = j :=
  have hlt : k < d.length := (List.getElem?_eq_some_iff.mp hk).1
  (List.getElem?_inj hlt (ascending_nodup hd)).mp (hk.trans hj.symm)

/-- Settles O35: the rank is the index (R120), and as an index of the dictionary it is read whole. -/
theorem rankReadsTheIndex : Obligations.RankReadsTheIndex := by
  refine fun s f v ⟨hd, hsize⟩ hcap => ⟨fun hv => ?_, fun hv => ?_⟩
  · have hwhole : (BitVec.ofNat 32 (countBelow v (s.dict f))).toNat = countBelow v (s.dict f) :=
      toNat_ofNat_of_le_cap ((countBelow_lt hd hv).le.trans hsize) hcap
    have hindex : (s.dict f)[(BitVec.ofNat 32 (countBelow v (s.dict f))).toNat]? = some v := by
      rw [hwhole]; exact getElem?_countBelow hd hv
    refine ⟨_, hindex, fun k hk => index_unique hd hindex hk, hwhole, ?_⟩
    rw [exec_rank, dictRank_of_mem hv]; rfl
  · rw [exec_rank, dictRank_of_not_mem hv]; rfl

theorem selLegal_selOfField (f : DictField) : selLegal (selOfField f) = true := by cases f <;> rfl

/-- Settles O36: RANK answers the one index at which DRD answers the value, and neither looks at RESP. -/
theorem rankAndDrdAreInverse : Obligations.RankAndDrdAreInverse := by
  intro s f hs
  obtain ⟨⟨-, -, -, hcap⟩, -, hdict, -⟩ := (stateInv_iff s).mp hs
  have hrank := fun v hv => (rankReadsTheIndex s f v (hdict f) hcap).1 hv
  have hdrd := fun k hk => (drdReadsAnEntry s f k).1 hk
  refine ⟨fun v hv => ?_, fun k hk => ?_⟩
  · obtain ⟨k, hindex, -, -, hranked⟩ := hrank v hv
    obtain ⟨hk, hentry⟩ := List.getElem?_eq_some_iff.mp hindex
    have hread := hdrd k hk
    rw [hentry] at hread
    have hrepeat := exec_read_withResp (i := .drd (selOfField f) k) (selLegal_selOfField f) rfl s
    exact ⟨_, _, k, hranked, rfl, (hrepeat _).trans hread, rfl⟩
  · obtain ⟨r, -, hunique, -, hranked⟩ := hrank _ (List.getElem_mem hk)
    have hr : k = r := BitVec.eq_of_toNat_eq (hunique k.toNat (List.getElem?_eq_getElem hk))
    rw [← hr] at hranked
    have hrepeat := exec_read_withResp (i := .rank (selOfField f) (s.dict f)[k.toNat]) (selLegal_selOfField f) rfl s
    exact ⟨_, _, _, hdrd k hk, rfl, (hrepeat _).trans hranked, rfl⟩

/-! ## SCAN's insertions (R146) -/

/-- SCAN past its first checks (a channel, the onset's order): the check of the room, then the insertions. -/
theorem exec_scan_of_channel {s : State} {onset : Word} (hch : s.chan ≠ 3#2) (honset : s.prevOnset ≤ onset)
    (duration pitch : Word) :
    exec (.scan onset duration pitch) s =
      unlessFaulted s
        (if anyLacksRoom (chanFields s.chan) (byField (onset - s.prevOnset) duration pitch) s then raise .dictFull s
        else .next
          { insertFields (chanFields s.chan) (byField (onset - s.prevOnset) duration pitch) s with
            prevOnset := onset }) := by
  have hchannel : s.chan ≠ chanNone := hch
  have hdelta : nextDelta onset s = some (onset - s.prevOnset) := if_neg (BitVec.not_lt.mpr honset)
  rw [exec, execScan, if_neg hchannel, hdelta]

/-- SCAN's capacity check passes when each field the channel uses holds its value or has room (R143, R146). -/
theorem anyLacksRoom_of_room {s : State} {val : DictField → Word}
    (hroom : ∀ f, usesField s.chan f = true → val f ∈ s.dict f ∨ (s.dict f).length ≠ s.cfg.dictCap) :
    ¬ anyLacksRoom (chanFields s.chan) val s = true := by
  rw [anyLacksRoom_iff]
  rintro ⟨f, w, hf, hnew, hfull⟩
  exact (hroom f ((usesField_iff s.chan f).mpr ⟨w, hf⟩)).elim hnew fun hne => hne hfull

/-- A channel's insertions go into the dictionaries it uses, and into no other (R143). -/
theorem insertFields_chanFields_dict (ch : BitVec 2) (val : DictField → Word) (s : State) (f : DictField) :
    (insertFields (chanFields ch) val s).dict f =
      if usesField ch f then dictInsert (val f) (s.dict f) else s.dict f := by
  have hused : f ∈ (chanFields ch).map (·.1) ↔ usesField ch f = true := by simp [usesField_iff]
  rw [insertFields_dict _ (chanFields_nodup ch)]
  simp only [hused]

/-- Settles O45: SCAN past its checks is one DictInsert into each dictionary the channel uses. -/
theorem scanCollectsTheNotesValues : Obligations.ScanCollectsTheNotesValues := by
  intro s onset duration pitch hf hch honset hused
  have hdict := insertFields_chanFields_dict s.chan (byField (onset - s.prevOnset) duration pitch) s
  refine ⟨{ insertFields (chanFields s.chan) (byField (onset - s.prevOnset) duration pitch) s with
      prevOnset := onset }, ?_, rfl, fun f huses => ?_, fun f hunused => ?_, ?_⟩
  · rw [exec_scan_of_channel hch honset, unlessFaulted_of_running hf,
      if_neg (anyLacksRoom_of_room fun f huses => (hused f huses).2)]
  · have hinserted := (hdict f).trans (if_pos huses)
    exact ⟨hinserted ▸ dictInsert_ascending (hused f huses).1 _, fun x => hinserted ▸ mem_dictInsert _ x _⟩
  · exact (hdict f).trans (if_neg (by rw [hunused]; decide))
  · rw [insertFields_frame]

end Sys2Proof.Machine
end

section
/-! PROOFS. 42_channel_dispatch.md: SETCH and REWIND, the checks of SCAN and EMIT in their order, the noise channel, the
places of the notes in the stream, and the ENCODE sequence against the source's ChannelEncoder. A completed emission
appends the channel's bits per note; a run of them, and the second pass of ENCODE, is an induction on that. -/

namespace Sys2Proof.Machine

/-! ## SETCH and REWIND (R144, R145) -/

/-- Settles O38: a channel that is not NONE is legal, and while not FAULTED it is written. -/
theorem setchSelectsTheChannel : Obligations.SetchSelectsTheChannel := by
  intro s channel hf hch
  have hchannel : channel ≠ chanNone := hch
  rw [exec, execSetch, if_neg hchannel, unlessFaulted_of_running hf]

/-- Settles O39: REWIND has no check but the one for FAULTED. -/
theorem rewindZeroesPrevOnset : Obligations.RewindZeroesPrevOnset :=
  fun _ hf => unlessFaulted_of_running hf _

/-! ## ORDER, DICT_FULL and MISS (R142, R146, R147) -/

/-- Settles O43: on a channel both commands derive the delta before anything else. -/
theorem decreasingOnsetFaults : Obligations.DecreasingOnsetFaults := by
  intro s onset duration pitch hf hch hlt
  have hchannel : s.chan ≠ chanNone := hch
  have hdelta : nextDelta onset s = none := if_pos hlt
  refine ⟨?_, ?_⟩
  · rw [exec, execScan, unlessFaulted_of_running hf, if_neg hchannel, hdelta]
    rfl
  · rw [exec, execEmit, unlessFaulted_of_running hf, if_neg hchannel, hdelta]
    rfl

/-- Settles O44: one used field without room is enough for the check, which comes before the first insertion. -/
theorem scanIntoAFullDictionaryFaults : Obligations.ScanIntoAFullDictionaryFaults := by
  intro s onset duration pitch f hf hch honset hused hnew hfull
  obtain ⟨w, hw⟩ := (usesField_iff s.chan f).mp hused
  rw [exec_scan_of_channel hch honset, unlessFaulted_of_running hf,
    if_pos ((anyLacksRoom_iff _ _ s).mpr ⟨f, w, hw, hnew, hfull⟩)]
  rfl

/-- Settles O47: the lookups come before the check of the room, and one miss ends them. -/
theorem emitOfAMissingValueFaults : Obligations.EmitOfAMissingValueFaults := by
  intro s onset duration pitch f hf hch honset hused hmiss
  have hchannel : s.chan ≠ chanNone := hch
  have hdelta : nextDelta onset s = some (onset - s.prevOnset) := if_neg (BitVec.not_lt.mpr honset)
  obtain ⟨w, hw⟩ := (usesField_iff s.chan f).mp hused
  rcases lookupRanks_cases (chanFields s.chan) (byField (onset - s.prevOnset) duration pitch) s with
    ⟨hall, -⟩ | ⟨-, hnone⟩
  · exact absurd (hall f w hw) hmiss
  · simp only [exec, execEmit, unlessFaulted_of_running hf, if_neg hchannel, hdelta, hnone]
    rfl

/-! ## The noise channel (R143) -/

/-- SCAN leaves the dictionaries of the fields its channel does not use. -/
theorem scan_dict_of_unused {o d p : Word} {s t : State} (h : exec (.scan o d p) s = .next t) {f : DictField}
    (hunused : usesField s.chan f = false) : t.dict f = s.dict f := by
  cases exec_effect_of_next h with
  | discarded | illegal | raised => rfl
  | scan =>
    exact (insertFields_chanFields_dict s.chan _ s f).trans (if_neg (by rw [hunused]; decide))
  | read _ hi | nop hi | clrs _ hi | wbit _ _ hi | wbits _ _ _ hi | setch _ _ hi | dins _ _ _ hi | dclr _ hi
  | rewind _ hi | emit _ _ _ _ hi | emitr _ _ _ _ hi => cases hi

/-- Settles O46: the delta is the one field of the noise channel, so no command looks at the operands of the others. -/
theorem noiseIgnoresDurationAndPitch : Obligations.NoiseIgnoresDurationAndPitch := by
  intro s a b c b' c' hnoise
  have hfields : chanFields s.chan = [(.delta, 3)] := by rw [hnoise]; rfl
  refine ⟨?_, ?_, ?_, fun t hexec => ?_⟩
  · simp only [exec, execScan, hfields]; rfl
  · simp only [exec, execEmit, hfields]; rfl
  · simp only [exec, execEmitr, hfields]; rfl
  · exact ⟨scan_dict_of_unused hexec (by rw [hnoise]; rfl), scan_dict_of_unused hexec (by rw [hnoise]; rfl)⟩

/-! ## Runs of commands (R60) -/

theorem execAll_cons {i : Instr} {s t : State} (h : exec i s = .next t) (rest : List Instr) :
    execAll (i :: rest) s = execAll rest t := by
  rw [execAll, h]

theorem execAll_append {is : List Instr} {s t : State} (h : execAll is s = .next t) (js : List Instr) :
    execAll (is ++ js) s = execAll js t := by
  induction is generalizing s with
  | nil => cases h; rfl
  | cons i is ih =>
    obtain ⟨u, hu, -⟩ := exec_effect i s
    rw [execAll_cons hu] at h
    rw [List.cons_append, execAll_cons hu, ih h]

/-! ## Notes one after another (R149, R150) -/

theorem AppendsBits.trans {m n : Nat} {s t u : State} (h : AppendsBits m s t) (h' : AppendsBits n t u) :
    AppendsBits (m + n) s u where
  tb := by rw [h'.tb, h.tb, Nat.add_assoc]
  ends hs := h'.ends (h.ends hs)
  bits hs k hk :=
    (h'.bits (h.ends hs) k (by rw [h.tb]; exact Nat.lt_add_right m hk)).trans (h.bits hs k hk)

theorem streamSlice_congr {s t : State} {p n : Nat} (h : ∀ k, k < p + n → streamBit t k = streamBit s k) :
    streamSlice t p n = streamSlice s p n :=
  List.map_congr_left fun i hi => h (p + i) (Nat.add_lt_add_left (List.mem_range.mp hi) p)

/-- `t` is a completed run of emissions on the channel of `s`, which appended `n` bits. -/
structure EmitsBits (n : Nat) (s t : State) : Prop where
  running : s.faulted = false
  chan : t.chan = s.chan
  appends : AppendsBits n s t

/-- An emission that completes appends the bits of one note (R147, R148). -/
theorem exec_emitsBits {i : Instr} {s t : State} (hi : isEmission i = true) (hexec : exec i s = .next t)
    (ht : t.faulted = false) : EmitsBits (bitsPerNote s.chan) s t := by
  cases exec_effect_of_next hexec with
  | emit o d p hf =>
    have happ := appendsBits_writeRanks s.chan (fun f => countBelow (byField (o - s.prevOnset) d p f) (s.dict f)) s
    exact ⟨hf, by rw [writeFields_frame], happ.congr rfl⟩
  | emitr a b c hf =>
    exact ⟨hf, by rw [writeFields_frame], appendsBits_writeRanks s.chan (fun f => (byField a b c f).toNat) s⟩
  | discarded hf => rw [hf] at ht; cases ht
  | illegal | raised => cases ht
  | read _ hread =>
    cases i with
    | emit | emitr => cases hread
    | _ => cases hi
  | nop h | clrs _ h | wbit _ _ h | wbits _ _ _ h | setch _ _ h | dins _ _ _ h | dclr _ h | scan _ _ _ _ h
  | rewind _ h => subst h; cases hi

/-- A run of emissions of which the last state is not FAULTED appends the bits of as many notes: FAULTED would have
stayed (R149, R184). -/
theorem execAll_emitsBits {notes : List Instr} {s t : State} (hnotes : ∀ i ∈ notes, isEmission i = true)
    (hexec : execAll notes s = .next t) (ht : t.faulted = false) :
    EmitsBits (notes.length * bitsPerNote s.chan) s t := by
  induction notes generalizing s with
  | nil =>
    cases hexec
    exact ⟨ht, rfl, by rw [List.length_nil, Nat.zero_mul]; exact .refl _⟩
  | cons i rest ih =>
    obtain ⟨hi, hrest⟩ := List.forall_mem_cons.mp hnotes
    obtain ⟨u, hu, -⟩ := exec_effect i s
    rw [execAll_cons hu] at hexec
    obtain ⟨hfu, hchan, hlater⟩ := ih hrest hexec
    obtain ⟨hfs, hchan', hfirst⟩ := exec_emitsBits hi hu hfu
    rw [hchan'] at hlater
    refine ⟨hfs, hchan.trans hchan', ?_⟩
    rw [List.length_cons, Nat.succ_mul, Nat.add_comm]
    exact hfirst.trans hlater

/-- A run of emissions that completes, cut after its first `j`: both parts complete. -/
theorem execAll_emissions_split {notes : List Instr} {s t u : State} (hnotes : ∀ i ∈ notes, isEmission i = true)
    (hexec : execAll notes s = .next t) (ht : t.faulted = false) {j : Nat} (hj : j ≤ notes.length)
    (hfirst : execAll (notes.take j) s = .next u) :
    EmitsBits (j * bitsPerNote s.chan) s u ∧ EmitsBits ((notes.length - j) * bitsPerNote s.chan) u t := by
  rw [← List.take_append_drop j notes, execAll_append hfirst] at hexec
  have hlater := execAll_emitsBits (fun i hi => hnotes i (List.mem_of_mem_drop hi)) hexec ht
  have hbefore := execAll_emitsBits (fun i hi => hnotes i (List.mem_of_mem_take hi)) hfirst hlater.running
  rw [List.length_drop, hbefore.chan] at hlater
  rw [List.length_take_of_le hj] at hbefore
  exact ⟨hbefore, hlater⟩

theorem streamEnds_clearStream (s : State) : StreamEnds (clearStream s) :=
  ⟨clearStream_memWf s, by simp, fun _ _ => by simp [streamBit]⟩

theorem tb_clearStream (s : State) : (clearStream s).tb = 0 := rfl

/-- Settles O50: the stream after each note is read off the run up to it, and the notes after it only append. -/
theorem notesFillTheStreamInOrder : Obligations.NotesFillTheStreamInOrder := by
  intro s s1 t notes _ hclrs hnotes hexec ht
  have hrun := execAll_emitsBits hnotes hexec ht
  obtain rfl : s1 = clearStream s := by
    rcases unlessFaulted_cases s (.next (clearStream s)) with ⟨hf, hdiscarded⟩ | ⟨-, hran⟩
    · cases hclrs.symm.trans hdiscarded
      exact absurd hf (Bool.eq_false_iff.mp hrun.running)
    · cases hclrs.symm.trans hran; rfl
  have htb : ∀ {n : Nat} {u : State}, EmitsBits n (clearStream s) u → u.tb = n := fun h => by
    rw [h.appends.tb, tb_clearStream, Nat.zero_add]
  refine ⟨htb hrun, by rw [tb_div, len_eq], fun j u v hj hu hv => ?_⟩
  obtain ⟨hbefore, -⟩ := execAll_emissions_split hnotes hexec ht hj.le hu
  obtain ⟨hthrough, hlater⟩ := execAll_emissions_split hnotes hexec ht hj hv
  refine ⟨htb hbefore, htb hthrough, streamSlice_congr fun k hk => ?_⟩
  refine hlater.appends.bits (hthrough.appends.ends (streamEnds_clearStream s)) k ?_
  rw [htb hthrough, Nat.succ_mul]
  exact hk

/-! ## The source's ChannelEncoder, note by note (R153) -/

/-- The value of each field of a note that follows an onset (R142, R146). -/
def noteValues (prev : Word) (note : Note) : DictField → Word :=
  byField (note.onset - prev) note.duration note.pitch

/-- Step 1: the values of a field over the notes that follow an onset. -/
def valuesFrom (f : DictField) (prev : Word) (notes : List Note) : List Word :=
  match f with
  | .delta => noteDeltas prev notes
  | .length => notes.map (·.duration)
  | .pitch => notes.map (·.pitch)

theorem fieldValues_eq (notes : List Note) (f : DictField) : fieldValues notes f = valuesFrom f 0#32 notes := by
  cases f <;> rfl

theorem valuesFrom_nil (f : DictField) (prev : Word) : valuesFrom f prev [] = [] := by cases f <;> rfl

theorem valuesFrom_cons (f : DictField) (prev : Word) (note : Note) (rest : List Note) :
    valuesFrom f prev (note :: rest) = noteValues prev note f :: valuesFrom f note.onset rest := by
  cases f <;> rfl

/-- Step 3: the bitstream of the notes that follow an onset, with given dictionaries. -/
def streamFrom (ch : BitVec 2) (dict : DictField → List Word) (prev : Word) (notes : List Note) : List Bool :=
  (notes.zip (noteDeltas prev notes)).flatMap fun nd =>
    rankBits (chanFields ch) dict (byField nd.2 nd.1.duration nd.1.pitch)

theorem refStream_eq (ch : BitVec 2) (notes : List Note) :
    refStream ch notes = streamFrom ch (refDict ch notes) 0#32 notes := rfl

theorem streamFrom_cons (ch : BitVec 2) (dict : DictField → List Word) (prev : Word) (note : Note)
    (rest : List Note) :
    streamFrom ch dict prev (note :: rest) =
      rankBits (chanFields ch) dict (noteValues prev note) ++ streamFrom ch dict note.onset rest := rfl

/-- A note list in onset order that follows an onset (R142). -/
def InOrderFrom (prev : Word) (notes : List Note) : Prop := (∀ n ∈ notes, prev ≤ n.onset) ∧ sortedByOnset notes

theorem inOrderFrom_zero {notes : List Note} (h : sortedByOnset notes) : InOrderFrom 0#32 notes :=
  ⟨fun _ _ => Nat.zero_le _, h⟩

theorem InOrderFrom.uncons {prev : Word} {note : Note} {rest : List Note} (h : InOrderFrom prev (note :: rest)) :
    prev ≤ note.onset ∧ InOrderFrom note.onset rest :=
  ⟨h.1 note List.mem_cons_self, List.pairwise_cons.mp h.2⟩

/-! ## The first pass: SCAN of each note (R146) -/

/-- SCAN of notes in onset order builds the set of their values in each used dictionary, when the dictionary's entries and
the values are all among at most DICT_CAP values. -/
theorem execAll_scanNotes {s : State} {notes : List Note} {u : DictField → List Word} (hf : s.faulted = false)
    (hch : s.chan ≠ 3#2) (horder : InOrderFrom s.prevOnset notes)
    (hused : ∀ f, usesField s.chan f = true → (s.dict f).Pairwise (· < ·) ∧ s.dict f ⊆ u f ∧
      valuesFrom f s.prevOnset notes ⊆ u f ∧ (u f).length ≤ s.cfg.dictCap) :
    ∃ t, execAll (notes.map scanNote) s = .next t ∧
      (∀ f, usesField s.chan f = true → (t.dict f).Pairwise (· < ·) ∧
        ∀ x, x ∈ t.dict f ↔ x ∈ valuesFrom f s.prevOnset notes ∨ x ∈ s.dict f) ∧
      (∀ f, usesField s.chan f = false → t.dict f = s.dict f) ∧
      t = { s with dictDelta := t.dictDelta, dictLength := t.dictLength, dictPitch := t.dictPitch,
                   prevOnset := t.prevOnset } := by
  induction notes generalizing s with
  | nil => exact ⟨s, rfl, fun f huses => ⟨(hused f huses).1, fun x => by simp [valuesFrom_nil]⟩, fun _ _ => rfl, rfl⟩
  | cons note rest ih =>
    obtain ⟨honset, horder⟩ := horder.uncons
    have hroom : ∀ f, usesField s.chan f = true → (s.dict f).Pairwise (· < ·) ∧
        (noteValues s.prevOnset note f ∈ s.dict f ∨ (s.dict f).length ≠ s.cfg.dictCap) := fun f huses => by
      obtain ⟨hasc, hdu, hvs, hcap⟩ := hused f huses
      rw [valuesFrom_cons] at hvs
      exact ⟨hasc, room_of_subset (ascending_nodup hasc) hdu (hvs List.mem_cons_self) hcap⟩
    obtain ⟨t, hexec, hprev, hinto, hother, hframe⟩ :=
      scanCollectsTheNotesValues s note.onset note.duration note.pitch hf hch honset hroom
    have hchan : t.chan = s.chan := (congrArg State.chan hframe :)
    have hcfg : t.cfg = s.cfg := (congrArg State.cfg hframe :)
    have hrest := ih (s := t) ((congrArg State.faulted hframe).trans hf) (hchan ▸ hch) (hprev ▸ horder)
    rw [hchan, hcfg, hprev] at hrest
    obtain ⟨v, hexec', hinto', hother', hframe'⟩ := hrest fun f huses => by
      obtain ⟨-, hdu, hvs, hcap⟩ := hused f huses
      obtain ⟨hasc, hmem⟩ := hinto f huses
      rw [valuesFrom_cons, List.cons_subset] at hvs
      obtain ⟨hv, hvs⟩ := hvs
      refine ⟨hasc, fun x hx => ?_, hvs, hcap⟩
      rcases (hmem x).mp hx with rfl | hx
      · exact hv
      · exact hdu hx
    refine ⟨v, (execAll_cons hexec _).trans hexec', fun f huses => ⟨(hinto' f huses).1, fun x => ?_⟩,
      fun f hunused => (hother' f hunused).trans (hother f hunused), ?_⟩
    · rw [(hinto' f huses).2, (hinto f huses).2, valuesFrom_cons, List.mem_cons, or_assoc, or_left_comm]
      rfl
    · rw [hframe', hframe]

/-! ## The second pass: EMIT of each note (R147) -/

/-- The stream written so far, bit 0 first (R50). -/
def written (s : State) : List Bool := streamSlice s 0 s.tb

theorem streamSlice_add (s : State) (p m n : Nat) :
    streamSlice s p (m + n) = streamSlice s p m ++ streamSlice s (p + m) n := by
  simp only [streamSlice, List.range_add, List.map_append, List.map_map, Function.comp_def, Nat.add_assoc]

theorem AppendsBits.written_eq {n : Nat} {s t : State} (h : AppendsBits n s t) (hs : StreamEnds s) :
    written t = written s ++ streamSlice t s.tb n := by
  have hbefore : streamSlice t 0 s.tb = streamSlice s 0 s.tb :=
    streamSlice_congr fun k hk => h.bits hs k (by rwa [Nat.zero_add] at hk)
  rw [written, h.tb, streamSlice_add, hbefore, Nat.zero_add, written]

theorem StreamEnds.congr {s t : State} (h : StreamEnds s) (ht : t.streamParts = s.streamParts) : StreamEnds t :=
  ((AppendsBits.refl s).congr ht).ends h

/-- EMIT of a note whose values are in its channel's dictionaries and whose bits fit: the source's bits for the note. -/
theorem exec_emitNote {s : State} {note : Note} (hf : s.faulted = false) (hch : s.chan ≠ 3#2)
    (honset : s.prevOnset ≤ note.onset)
    (hused : ∀ f, usesField s.chan f = true →
      (s.dict f).Pairwise (· < ·) ∧ noteValues s.prevOnset note f ∈ s.dict f)
    (hends : StreamEnds s) (hfit : (s.tb + bitsPerNote s.chan) / 8 + 1 ≤ s.cfg.bufCap) :
    ∃ t, exec (emitNote note) s = .next t ∧ AppendsBits (bitsPerNote s.chan) s t ∧
      written t = written s ++ rankBits (chanFields s.chan) s.dict (noteValues s.prevOnset note) ∧
      t = { s with mem := t.mem, byteIndex := t.byteIndex, bitOffset := t.bitOffset, ovf := t.ovf,
                   prevOnset := note.onset } := by
  have hrank : ∀ f, usesField s.chan f = true → countBelow (noteValues s.prevOnset note f) (s.dict f) =
      (s.dict f).idxOf (noteValues s.prevOnset note f) :=
    fun f huses => countBelow_eq_idxOf (hused f huses).1 (hused f huses).2
  have hroom : s.len + (s.bitOffset.toNat + bitsPerNote s.chan) / 8 ≤ s.cfg.bufCap := by
    rw [tb_eq] at hfit
    rw [len_eq]
    omega
  have hexec : exec (emitNote note) s = .next
      { writeRanks s.chan (fun f => countBelow (noteValues s.prevOnset note f) (s.dict f)) s with
        prevOnset := note.onset } :=
    (exec_emit_of_lookups hch honset fun f huses => (hused f huses).2).trans (gatedWrite_of_fits hf hroom _)
  rw [writeRanks_congr hrank] at hexec
  have happ := appendsBits_writeRanks s.chan (fun f => (s.dict f).idxOf (noteValues s.prevOnset note f)) s
  refine ⟨_, hexec, happ.congr rfl, ?_, by rw [writeRanks_frame]⟩
  rw [rankBits, ← streamSlice_writeRanks hends s.chan fun f => (s.dict f).idxOf (noteValues s.prevOnset note f)]
  exact happ.written_eq hends

/-- EMIT of notes in onset order whose values are in the dictionaries and whose bits fit: the source's bitstream. -/
theorem execAll_emitNotes {s : State} {notes : List Note} (hf : s.faulted = false) (hch : s.chan ≠ 3#2)
    (horder : InOrderFrom s.prevOnset notes)
    (hused : ∀ f, usesField s.chan f = true →
      (s.dict f).Pairwise (· < ·) ∧ valuesFrom f s.prevOnset notes ⊆ s.dict f)
    (hends : StreamEnds s) (hfit : (s.tb + notes.length * bitsPerNote s.chan) / 8 + 1 ≤ s.cfg.bufCap) :
    ∃ t, execAll (notes.map emitNote) s = .next t ∧ t.faulted = false ∧ t.dict = s.dict ∧ StreamEnds t ∧
      written t = written s ++ streamFrom s.chan s.dict s.prevOnset notes := by
  induction notes generalizing s with
  | nil => exact ⟨s, rfl, hf, rfl, hends, (List.append_nil _).symm⟩
  | cons note rest ih =>
    rw [List.length_cons, Nat.succ_mul] at hfit
    obtain ⟨honset, horder⟩ := horder.uncons
    simp only [valuesFrom_cons, List.cons_subset] at hused
    obtain ⟨t, hexec, happ, hwritten, hframe⟩ := exec_emitNote hf hch honset
      (fun f huses => ⟨(hused f huses).1, (hused f huses).2.1⟩) hends (by omega)
    have hchan : t.chan = s.chan := (congrArg State.chan hframe :)
    have hcfg : t.cfg = s.cfg := (congrArg State.cfg hframe :)
    have hdict : t.dict = s.dict := (congrArg State.dict hframe :)
    have hprev : t.prevOnset = note.onset := (congrArg State.prevOnset hframe :)
    have hrest := ih (s := t) ((congrArg State.faulted hframe).trans hf)
    rw [hchan, hcfg, hdict, hprev, happ.tb] at hrest
    obtain ⟨v, hexec', hfv, hdict', hendsv, hwritten'⟩ := hrest hch horder
      (fun f huses => ⟨(hused f huses).1, (hused f huses).2.2⟩) (happ.ends hends) (by omega)
    refine ⟨v, (execAll_cons hexec _).trans hexec', hfv, hdict', hendsv, ?_⟩
    rw [hwritten', hwritten, List.append_assoc, streamFrom_cons]

/-! ## The stream as bytes (R54, R65) -/

theorem testBit_bitsValue (bits : List Bool) (k : Nat) : (bitsValue bits).testBit k = (bits[k]?).getD false := by
  induction bits generalizing k with
  | nil => simp [bitsValue]
  | cons b bits ih =>
    have hbit : bitsValue (b :: bits) = Nat.bit b (bitsValue bits) := by
      rw [Nat.bit_val, bitsValue, Nat.add_comm]
    rw [hbit]
    cases k with
    | zero => simp
    | succ k => rw [Nat.testBit_bit_succ, ih, List.getElem?_cons_succ]

theorem length_written (s : State) : (written s).length = s.tb := by simp [written, streamSlice]

theorem getElem?_written {s : State} (h : StreamEnds s) (k : Nat) : ((written s)[k]?).getD false = streamBit s k := by
  by_cases hk : k < s.tb
  · simp [written, streamSlice, hk]
  · rw [List.getElem?_eq_none (by rw [length_written]; omega), h.zeros k (Nat.not_lt.mp hk)]
    rfl

/-- BUF holds the stream packed from bit 0 of byte 0, the unused bits of the last byte zero. -/
theorem output_eq_packBits {s : State} (h : StreamEnds s) : output s = packBits (written s) := by
  rw [output, packBits, length_written, tb_div, ← len_eq]
  refine List.map_congr_left fun j _ => byte_ext fun i hi => ?_
  rw [← streamBit_byte s j i hi, ← getElem?_written h, BitVec.getLsbD_ofNat, testBit_bitsValue,
    List.getElem?_take_of_lt hi, List.getElem?_drop]
  simp [hi]

/-! ## ENCODE (R81, R153) -/

/-- What BEGIN leaves: an empty stream, empty dictionaries, the channel, and PREV_ONSET at 0 (R81). -/
def begun (ch : BitVec 2) (s : State) : State := { clearDicts (clearStream s) with chan := ch, prevOnset := 0#32 }

theorem execAll_expandBegin {s : State} {ch : BitVec 2} (hf : s.faulted = false) (hch : ch ≠ 3#2) :
    execAll (expandBegin ch) s = .next (begun ch s) := by
  have hclrs : exec .clrs s = .next (clearStream s) := unlessFaulted_of_running hf _
  have hdclr : exec .dclr (clearStream s) = .next (clearDicts (clearStream s)) :=
    unlessFaulted_of_running (s := clearStream s) hf _
  have hsetch := setchSelectsTheChannel (clearDicts (clearStream s)) ch hf hch
  have hrewind := rewindZeroesPrevOnset { clearDicts (clearStream s) with chan := ch } hf
  rw [expandBegin, execAll_cons hclrs, execAll_cons hdclr, execAll_cons hsetch, execAll_cons hrewind]
  rfl

theorem dict_begun (ch : BitVec 2) (s : State) (f : DictField) : (begun ch s).dict f = [] := by cases f <;> rfl

/-- The first pass from BEGIN leaves the source's dictionaries, and the stream as it was. -/
theorem execAll_scanNotes_begun {s : State} {ch : BitVec 2} {notes : List Note} (hf : s.faulted = false)
    (hch : ch ≠ 3#2) (hsorted : sortedByOnset notes)
    (hcap : ∀ f, usesField ch f = true → (fieldValues notes f).dedup.length ≤ s.cfg.dictCap) :
    ∃ t, execAll (notes.map scanNote) (begun ch s) = .next t ∧ t.dict = refDict ch notes ∧
      t = { begun ch s with dictDelta := t.dictDelta, dictLength := t.dictLength, dictPitch := t.dictPitch,
                            prevOnset := t.prevOnset } := by
  obtain ⟨t, hexec, hinto, hother, hframe⟩ :=
    execAll_scanNotes (s := begun ch s) (u := fun f => (fieldValues notes f).dedup) hf hch (inOrderFrom_zero hsorted)
      fun f huses => by
        rw [dict_begun]
        exact ⟨.nil, List.nil_subset _, fieldValues_eq notes f ▸ List.subset_dedup _, hcap f huses⟩
  refine ⟨t, hexec, funext fun f => ?_, hframe⟩
  rw [refDict]
  split
  · rename_i huses
    obtain ⟨hasc, hmem⟩ := hinto f huses
    refine eq_sortedDistinct hasc fun x => ?_
    rw [hmem, dict_begun, fieldValues_eq]
    exact or_iff_left List.not_mem_nil
  · rename_i hunused
    rw [hother f (Bool.eq_false_iff.mpr hunused), dict_begun]

/-- Settles O51: the first pass leaves the source's dictionaries, the second writes the ranks in them. -/
theorem encodeProtocolGivesTheChannelEncoding : Obligations.EncodeProtocolGivesTheChannelEncoding := by
  intro s ch notes hf hch hsorted hcap hfit
  obtain ⟨t, hscan, hdict, hframe⟩ := execAll_scanNotes_begun hf hch hsorted hcap
  have hft : t.faulted = false := (congrArg State.faulted hframe).trans hf
  have hchan : t.chan = ch := (congrArg State.chan hframe :)
  have hcfg : t.cfg = s.cfg := (congrArg State.cfg hframe :)
  have htb : t.tb = 0 := (congrArg State.tb hframe :)
  have hends : StreamEnds t := (streamEnds_clearStream s).congr (congrArg State.streamParts hframe :)
  have hrewind := rewindZeroesPrevOnset t hft
  have hused : ∀ f, usesField t.chan f = true →
      (t.dict f).Pairwise (· < ·) ∧ valuesFrom f 0#32 notes ⊆ t.dict f := fun f huses => by
    rw [hchan] at huses
    rw [hdict, refDict, if_pos huses, ← fieldValues_eq]
    exact ⟨sortedDistinct_ascending _, fun x hx => (mem_sortedDistinct _ x).mpr hx⟩
  have hroom : (t.tb + notes.length * bitsPerNote t.chan) / 8 + 1 ≤ t.cfg.bufCap := by
    rw [htb, hchan, hcfg, Nat.zero_add]
    exact hfit
  obtain ⟨v, hemit, hfv, hdict', hendsv, hwritten⟩ :=
    execAll_emitNotes (s := { t with prevOnset := 0#32 }) hft (hchan ▸ hch) (inOrderFrom_zero hsorted) hused
      (hends.congr rfl) hroom
  have hstream : written v = refStream ch notes := by
    have hempty : written t = [] := by rw [written, htb]; rfl
    calc written v = written t ++ streamFrom t.chan t.dict 0#32 notes := hwritten
      _ = refStream ch notes := by rw [hempty, List.nil_append, hchan, hdict, refStream_eq]
  refine ⟨v, ?_, hfv, ?_, fun f => (congrFun hdict' f).trans (congrFun hdict f)⟩
  · rw [expandEncode, List.append_assoc, List.append_assoc, execAll_append (execAll_expandBegin hf hch),
      execAll_append hscan, List.singleton_append, execAll_cons hrewind, hemit]
  · rw [output_eq_packBits hendsv, hstream]

end Sys2Proof.Machine
end

section
/-! PROOFS. 43_readout_control.md: NOP (R170). -/

namespace Sys2Proof.Machine

/-- Settles O52: the arm of NOP is `execNop`, which has no check for FAULTED and hands back the state it is given. -/
theorem nopChangesNothing : Obligations.NopChangesNothing := by
  intro s
  calc exec .nop s = execNop s := rfl
    _ = .next s := rfl

end Sys2Proof.Machine
end

section
/-! PROOFS. 60_exceptions.md: which commands latch which faults (R181), fault entry (R183), the faulted block (R184) and
the one way out of it (R185). What a step can do to the latch is said once (`StepLatch`), with the cause of a latched
fault and the word it comes from; the statements about steps are read off it. -/

namespace Sys2Proof.Machine

/-! ## FAULTED under the operations of a command (R34) -/

@[simp] theorem writeBit_faulted (b : Bool) (s : State) : (writeBit b s).faulted = s.faulted := by rw [writeBit_frame]

@[simp] theorem writeField_faulted (v w : Nat) (s : State) : (writeField v w s).faulted = s.faulted := by
  rw [writeField_frame]

@[simp] theorem writeFields_faulted (fields : List (Nat × Nat)) (s : State) :
    (writeFields fields s).faulted = s.faulted := by
  rw [writeFields_frame]

@[simp] theorem insertValue_faulted (f : DictField) (v : Word) (s : State) :
    (insertValue f v s).faulted = s.faulted := by
  rw [insertValue_frame]

@[simp] theorem insertFields_faulted (fields : List (DictField × Nat)) (val : DictField → Word) (s : State) :
    (insertFields fields val s).faulted = s.faulted := by
  rw [insertFields_frame]

/-- A legal command that leaves the block FAULTED has latched one of the faults listed for it, and done nothing else
(R181, R183). -/
theorem ExecEffect.latches_of_faulted {i : Instr} {s t : State} (h : ExecEffect i s t) (hwf : i.wf = true)
    (hs : s.faulted = false) (ht : t.faulted = true) : ∃ c ∈ mayRaise i, t = latchFault c s := by
  cases h with
  | raised c _ hc => exact ⟨c, hc, rfl⟩
  | illegal _ hw => cases hwf.symm.trans hw
  | discarded hf => cases hs.symm.trans hf
  | nop | read | clrs | wbit | wbits | setch | dins | dclr | scan | rewind | emit | emitr => simp [hs] at ht

/-! ## The answer of a step (R188, R201) -/

theorem rstDone_of_ownFields {s t : State} (h : t.ownFields = s.ownFields) : t.rstDone = s.rstDone :=
  congrArg (fun own => own.2.2) h

theorem runIllegal_of_faulted {s : State} (hs : s.faulted = true) : runIllegal s = .next s :=
  unlessFaulted_of_faulted hs _

/-- An illegal word ends in a next state: the word is discarded, or ILLEGAL is latched (R77, R184). -/
theorem runIllegal_cases (s : State) :
    (s.faulted = true ∧ runIllegal s = .next s) ∨ (s.faulted = false ∧ runIllegal s = .next (latchFault .illegal s)) :=
  unlessFaulted_cases s (raise .illegal s)

/-- A step answers a next state, after an RST again one after an RST, or it is the refusal of R201. -/
theorem step_answers (s : State) :
    (∃ t, step s = .next t ∧ (s.rstDone = true → t.rstDone = true)) ∨
      (step s = .refused .commandBeforeReset ∧ s.rstDone = false ∧ ∃ word rest, s.input = .cmd word :: rest) := by
  rcases step_cases s with ⟨-, idle⟩ | ⟨word, rest, hin, hpower, refused⟩ | ⟨_, rest, i, -, -, -, command⟩ |
    ⟨_, rest, _, -, -, -, illegal⟩ | ⟨rest, -, reset⟩
  · exact .inl ⟨s, idle, id⟩
  · exact .inr ⟨refused, hpower, word, rest, hin⟩
  · obtain ⟨t, hexec, heffect⟩ := exec_effect i { s with input := rest }
    exact .inl ⟨t, command.trans hexec, (rstDone_of_ownFields heffect.ownFields_eq).trans⟩
  · rcases runIllegal_cases { s with input := rest } with ⟨-, hrun⟩ | ⟨-, hrun⟩ <;>
      exact .inl ⟨_, illegal.trans hrun, (rstDone_of_ownFields (runIllegal_ownFields hrun)).trans⟩
  · exact .inl ⟨_, reset, fun _ => rfl⟩

/-- Settles O11: of the two answers of a step, a state after an RST excludes the refusal, and neither is a fault. -/
theorem noStepStopsAfterReset : Obligations.NoStepStopsAfterReset := by
  refine ⟨fun s hs => ?_, fun s r hstep => ?_, fun s r hstep => ?_⟩ <;>
    rcases step_answers s with ⟨t, hnext, hready⟩ | ⟨refused, hpower, hcommand⟩
  · exact ⟨t, hnext, hready hs⟩
  · cases hs.symm.trans hpower
  · cases hnext.symm.trans hstep
  · cases refused.symm.trans hstep
    exact ⟨rfl, hpower, hcommand⟩
  · cases hnext.symm.trans hstep
  · cases refused.symm.trans hstep

/-! ## What a step can do to the latch (R183, R185) -/

/-- The causes a command word can raise: ILLEGAL if it is illegal, else those of its command (R181). -/
def WordRaises (word : CmdWord) (c : FaultCause) : Prop :=
  (∃ e, decode word = .error e ∧ c = .illegal) ∨ ∃ i, decode word = .ok i ∧ c ∈ mayRaise i

/-- Everything a step that answers `t` can do to the fault latch. -/
inductive StepLatch (s t : State) : Prop
  /-- RST (R185, R200). -/
  | cleared (rest : List HostMove) (hin : s.input = .rst :: rest) (hf : t.faulted = false) (hc : t.faultCode = 0#3)
  /-- A word or no move at all, and no fault. -/
  | kept (hin : ∀ rest, s.input ≠ .rst :: rest) (hf : t.faulted = s.faulted) (hc : t.faultCode = s.faultCode)
  /-- Fault entry (R183). -/
  | latched (word : CmdWord) (rest : List HostMove) (c : FaultCause) (hin : s.input = .cmd word :: rest)
      (hs : s.faulted = false) (hc : WordRaises word c) (ht : t = latchFault c { s with input := rest })

/-- The inversion of `step` for the latch. -/
theorem step_latch {s t : State} (hstep : step s = .next t) : StepLatch s t := by
  have noRst {word : CmdWord} {rest : List HostMove} (hin : s.input = .cmd word :: rest) :
      ∀ rest', s.input ≠ .rst :: rest' := fun _ hrst => by cases hin.symm.trans hrst
  rcases step_cases s with ⟨hin, idle⟩ | ⟨_, _, -, -, refused⟩ | ⟨word, rest, i, hin, -, hdecode, command⟩ |
    ⟨word, rest, e, hin, -, hdecode, illegal⟩ | ⟨rest, hin, reset⟩
  · cases idle.symm.trans hstep
    exact .kept (fun _ hrst => by cases hin.symm.trans hrst) rfl rfl
  · cases refused.symm.trans hstep
  · have heffect := exec_effect_of_next (command.symm.trans hstep)
    rcases heffect.fault_cases with ⟨hs, _, ht⟩ | ⟨hf, hc⟩
    · have hwf : i.wf = true := (encodeOfDecodeIsTheWord word i hdecode).2
      obtain ⟨c, hc, ht⟩ := heffect.latches_of_faulted hwf hs (by rw [ht]; rfl)
      exact .latched word rest c hin hs (.inr ⟨i, hdecode, hc⟩) ht
    · exact .kept (noRst hin) hf hc
  · rcases runIllegal_cases { s with input := rest } with ⟨-, hrun⟩ | ⟨hs, hrun⟩
    · cases (illegal.trans hrun).symm.trans hstep
      exact .kept (noRst hin) rfl rfl
    · cases (illegal.trans hrun).symm.trans hstep
      exact .latched word rest .illegal hin hs (.inl ⟨e, hdecode, rfl⟩) rfl
  · cases reset.symm.trans hstep
    exact .cleared rest hin rfl rfl

/-- A step into FAULTED is fault entry (R183). -/
theorem step_enters_fault {s t : State} (hs : s.faulted = false) (hstep : step s = .next t) (ht : t.faulted = true) :
    ∃ word rest c, s.input = .cmd word :: rest ∧ WordRaises word c ∧ t = latchFault c { s with input := rest } := by
  cases step_latch hstep with
  | cleared _ _ hf => cases hf.symm.trans ht
  | kept _ hf => cases (hf.trans hs).symm.trans ht
  | latched word rest c hin _ hc ht => exact ⟨word, rest, c, hin, hc, ht⟩

/-- Settles O17: fault entry is `latchFault` on the state before the command. -/
theorem faultsArePrecise : Obligations.FaultsArePrecise := by
  intro s t hs hstep ht
  obtain ⟨word, rest, c, hin, -, hlatch⟩ := step_enters_fault hs hstep ht
  exact ⟨.cmd word, rest, c, hin, hlatch, ht⟩

/-- Settles O20: a step keeps the latch, clears it by RST, or sets it from a state that is not FAULTED. -/
theorem onlyRstLeavesAFault : Obligations.OnlyRstLeavesAFault := by
  intro s t hs hstep
  cases step_latch hstep with
  | cleared rest hin hf hc => exact ⟨fun _ => ⟨hf, hc⟩, fun hnot => absurd hin (hnot rest)⟩
  | kept hin hf hc => exact ⟨fun ⟨rest, hrst⟩ => absurd hrst (hin rest), fun _ => ⟨hf.trans hs, hc⟩⟩
  | latched _ _ _ _ hrunning => cases hs.symm.trans hrunning

/-! ## The faulted block (R184) -/

/-- While FAULTED a command that is not one of the six has no effect at all. -/
theorem exec_of_faulted {i : Instr} {s : State} (hs : s.faulted = true) (hi : runsWhileFaulted i = false) :
    exec i s = .next s := by
  obtain ⟨t, hexec, heffect⟩ := exec_effect i s
  cases heffect with
  | discarded => exact hexec
  | nop h => subst h; cases hi
  | read _ h => rw [writesResp, hi] at h; cases h
  | illegal hf | raised _ hf | clrs hf | wbit _ hf | wbits _ _ hf | setch _ hf | dins _ _ hf | dclr hf | scan _ _ _ hf
  | rewind hf | emit _ _ _ hf | emitr _ _ _ hf => cases hs.symm.trans hf

/-- Settles O19: one of the six runs as `exec` says; any other legal word is discarded by its command's gate, an illegal
one by the gate of `runIllegal`. -/
theorem faultedBlockOnlyReads : Obligations.FaultedBlockOnlyReads := by
  refine fun s word rest hready hs hin => ⟨fun i hdecode hi => ?_, fun i hdecode hi => ?_, fun e hdecode => ?_⟩
  · have hwf : i.wf = true := (encodeOfDecodeIsTheWord word i hdecode).2
    have hstep := step_of_cmd hready hin hdecode
    obtain ⟨r, hexec⟩ := exec_eq_withResp hwf hi { s with input := rest }
    exact ⟨r, hstep.trans hexec, hstep⟩
  · exact (step_of_cmd hready hin hdecode).trans (exec_of_faulted hs hi)
  · exact (step_of_illegal hready hin hdecode).trans (runIllegal_of_faulted hs)

/-! ## Every listed fault occurs (R181) -/

/-- A command of this row raises this fault in some state of the invariant. -/
def Raises (op : Opcode) (c : FaultCause) : Prop :=
  ∃ i s t, opcodeOfInstr i = op ∧ StateInv s ∧ s.faulted = false ∧ exec i s = .next t ∧ t.faulted = true ∧
    t.faultCode = faultCodeOf c

theorem raises_of_exec (c : FaultCause) {i : Instr} {s : State} (hs : StateInv s) (hf : s.faulted = false)
    (hexec : exec i s = .next (latchFault c s)) : Raises (opcodeOfInstr i) c :=
  ⟨i, s, _, rfl, hs, hf, hexec, rfl, rfl⟩

/-- A block with no room left, on the noise channel after a note: BUF_CAP and DICT_CAP are 1, seven zero bits are written,
and the delta dictionary holds 0. The next bit would fill the last byte, a new delta does not fit, onset 0 is in the
past. -/
def noRoomLeft : State :=
  { State.resetWith { bufCap := 1, dictCap := 1 } [] with
    bitOffset := 7#3, chan := 0#2, prevOnset := 1#32, dictDelta := [0#32] }

theorem stateInv_noRoomLeft : StateInv noRoomLeft := by decide

/-- The same block with no channel set. -/
def noChannelSet : State := { noRoomLeft with chan := 3#2 }

theorem stateInv_noChannelSet : StateInv noChannelSet := by decide

theorem nochan_occurs : Raises .scan .nochan ∧ Raises .emit .nochan ∧ Raises .emitr .nochan := by
  obtain ⟨hscan, hemit, hemitr⟩ := noChannelFaults noChannelSet 0#32 0#32 0#32 rfl rfl
  exact ⟨raises_of_exec .nochan stateInv_noChannelSet rfl hscan, raises_of_exec .nochan stateInv_noChannelSet rfl hemit,
    raises_of_exec .nochan stateInv_noChannelSet rfl hemitr⟩

/-- Onset 0 is below PREV_ONSET. -/
theorem order_occurs : Raises .scan .order ∧ Raises .emit .order := by
  obtain ⟨hscan, hemit⟩ := decreasingOnsetFaults noRoomLeft 0#32 0#32 0#32 rfl (by decide) (by decide)
  exact ⟨raises_of_exec .order stateInv_noRoomLeft rfl hscan, raises_of_exec .order stateInv_noRoomLeft rfl hemit⟩

/-- Delta 1 is new to the full dictionary. -/
theorem dictFull_occurs : Raises .dins .dictFull ∧ Raises .scan .dictFull := by
  have hdins := dinsIntoAFullDictionaryFaults noRoomLeft .delta 1#32 rfl (by decide) rfl
  have hscan := scanIntoAFullDictionaryFaults noRoomLeft 2#32 0#32 0#32 .delta rfl (by decide) (by decide) rfl
    (by decide) rfl
  exact ⟨raises_of_exec .dictFull stateInv_noRoomLeft rfl hdins, raises_of_exec .dictFull stateInv_noRoomLeft rfl hscan⟩

/-- Delta 1 is not in the dictionary. -/
theorem miss_occurs : Raises .emit .miss :=
  raises_of_exec .miss stateInv_noRoomLeft rfl
    (emitOfAMissingValueFaults noRoomLeft 2#32 0#32 0#32 .delta rfl (by decide) (by decide) rfl (by decide))

/-- One bit does not fit, and delta 0 is in the dictionary. -/
theorem bufFull_occurs :
    Raises .wbit .bufFull ∧ Raises .wbits .bufFull ∧ Raises .emitr .bufFull ∧ Raises .emit .bufFull := by
  obtain ⟨hwbit, hwbits, hemitr, hemit⟩ := writesThatDoNotFitRaiseBufFull noRoomLeft rfl
  refine ⟨raises_of_exec .bufFull stateInv_noRoomLeft rfl (hwbit 0#1 (by decide)),
    raises_of_exec .bufFull stateInv_noRoomLeft rfl (hwbits 0#32 1#6 (by decide)),
    raises_of_exec .bufFull stateInv_noRoomLeft rfl (hemitr 0#32 0#32 0#32 (by decide) (by decide)),
    raises_of_exec .bufFull stateInv_noRoomLeft rfl (hemit 1#32 0#32 0#32 (by decide) (by decide) ?_ (by decide))⟩
  intro f hused
  cases f with
  | delta => decide
  | length | pitch => cases hused

/-- Each fault listed for a command occurs. -/
theorem raises_of_mayRaise {i : Instr} {c : FaultCause} (hc : c ∈ mayRaise i) : Raises (opcodeOfInstr i) c := by
  obtain ⟨hscanNochan, hemitNochan, hemitrNochan⟩ := nochan_occurs
  obtain ⟨hscanOrder, hemitOrder⟩ := order_occurs
  obtain ⟨hdinsFull, hscanFull⟩ := dictFull_occurs
  obtain ⟨hwbitFull, hwbitsFull, hemitrFull, hemitFull⟩ := bufFull_occurs
  cases i with
  | nop | clrs | setch | dclr | drd | dsz | rank | rewind | rdb | rdst => cases hc
  | wbit | wbits | dins => cases List.mem_singleton.mp hc; assumption
  | scan =>
    simp only [mayRaise, List.mem_cons, List.not_mem_nil, or_false] at hc
    rcases hc with rfl | rfl | rfl
    · exact hscanNochan
    · exact hscanOrder
    · exact hscanFull
  | emit =>
    simp only [mayRaise, List.mem_cons, List.not_mem_nil, or_false] at hc
    rcases hc with rfl | rfl | rfl | rfl
    · exact hemitNochan
    · exact hemitOrder
    · exact miss_occurs
    · exact hemitFull
  | emitr =>
    simp only [mayRaise, List.mem_cons, List.not_mem_nil, or_false] at hc
    rcases hc with rfl | rfl
    · exact hemitrNochan
    · exact hemitrFull

/-! ## Illegal words of every OP (R77) -/

/-- A word with a bit of RSV set is illegal: every word that matches a row is an encoder's word, and those have none. -/
theorem decode_error_of_rsv {word : CmdWord} (hrsv : word.extractLsb' 104 20 ≠ 0#20) : ∃ e, decode word = .error e := by
  refine (decode_error_iff word).mpr (.inl fun op => Bool.eq_false_iff.mpr fun hrow => hrsv ?_)
  obtain ⟨-, -, hzero⟩ := encodesInItsRow (buildInstr op word)
  rwa [(rowMatches_iff op word).mp hrow] at hzero

/-- The word of an OP with the lowest bit of RSV set and every other bit zero. -/
def reservedWord (op : Opcode) : CmdWord := opcodeBits op ++ 1#20 ++ 0#104

theorem opcodeOf_reservedWord (op : Opcode) : opcodeOf (opOf (reservedWord op)) = op := by
  cases op <;> rfl

theorem rsv_reservedWord (op : Opcode) : (reservedWord op).extractLsb' 104 20 = 1#20 := by
  cases op <;> rfl

/-- Settles O18: a word's faults by the inversion of the latch, each listed fault by a state that raises it, the illegal
words by their RSV. -/
theorem commandsRaiseOnlyTheirFaults : Obligations.CommandsRaiseOnlyTheirFaults := by
  refine ⟨fun i s t hwf hs hexec ht => ?_, fun s t word rest hs hin hstep ht => ?_, fun _ _ hc => raises_of_mayRaise hc,
    fun op => ?_⟩
  · obtain ⟨c, hc, hlatch⟩ := (exec_effect_of_next hexec).latches_of_faulted hwf hs ht
    exact ⟨c, hc, congrArg State.faultCode hlatch⟩
  · obtain ⟨word', rest', c, hin', hcause, hlatch⟩ := step_enters_fault hs hstep ht
    cases hin.symm.trans hin'
    have hcode : t.faultCode = faultCodeOf c := congrArg State.faultCode hlatch
    rcases hcause with ⟨e, hdecode, rfl⟩ | ⟨i, hdecode, hc⟩
    · exact .inl ⟨e, hdecode, hcode⟩
    · exact .inr ⟨i, hdecode, c, hc, hcode⟩
  · obtain ⟨e, herror⟩ := decode_error_of_rsv (word := reservedWord op) (by rw [rsv_reservedWord]; decide)
    exact ⟨reservedWord op, e, opcodeOf_reservedWord op, herror⟩

end Sys2Proof.Machine
end

section
/-! PROOFS. 70_reset_and_hazards.md: RST is taken in any state and leaves nothing of it (R200), a command before the first
RST is refused (R201). -/

namespace Sys2Proof.Machine

/-! ## The two moves of the host that a step does not decode (R200, R201) -/

/-- RST keeps the parameters and the moves still to come, and no register of the state it is asserted in. -/
theorem step_of_rst {s : State} {rest : List HostMove} (hinput : s.input = .rst :: rest) :
    step s = .next (State.resetWith s.cfg rest) := by
  rw [step, advance, hinput]; rfl

/-- The test of `rstDone` comes before decoding: legal and illegal words are refused alike. -/
theorem step_of_cmd_before_rst {s : State} {word : CmdWord} {rest : List HostMove} (hpower : s.rstDone = false)
    (hinput : s.input = .cmd word :: rest) : step s = .refused .commandBeforeReset := by
  simp only [step, advance, hinput, takeMove, runCommand, hpower, Bool.not_false, if_true]

/-! ## The state RST leaves (R23) -/

/-- No cell is listed, and the one byte of BUF is an unlisted one (log 5). -/
theorem output_resetWith (cfg : Config) (rest : List HostMove) : output (State.resetWith cfg rest) = [0x00#8] := rfl

theorem dict_resetWith (cfg : Config) (rest : List HostMove) (f : DictField) :
    (State.resetWith cfg rest).dict f = [] := by
  cases f <;> rfl

/-- Settles O8: RST leaves `State.resetWith`, a literal of R23's reset values that no register of the old state enters. -/
theorem rstLeavesTheResetValues : Obligations.RstLeavesTheResetValues := by
  intro s rest hinput
  have hdict := dict_resetWith s.cfg rest
  exact ⟨State.resetWith s.cfg rest, step_of_rst hinput, output_resetWith s.cfg rest, rfl, rfl, rfl, rfl, rfl,
    hdict .delta, hdict .length, hdict .pitch, rfl, rfl, rfl, rfl⟩

/-- Settles O10: a command is tested against `rstDone`, RST against nothing. -/
theorem commandBeforeResetIsRefused : Obligations.CommandBeforeResetIsRefused :=
  ⟨fun _ _ _ => step_of_cmd_before_rst, fun _ _ => step_of_rst, fun _ _ => ⟨rfl, rfl, rfl⟩⟩

end Sys2Proof.Machine
end
